-- ==== Sys2Proof/Word.lean ====
section
/-! DEFINITION. The widths of the block: an 8-bit element (00_scope.md R6) and the 16-bit command and
response words of a transaction (30_encoding.md R61, R64). -/

namespace Sys2Proof

/-- One stored element: 8 bits (R6). -/
abbrev Byte := BitVec 8

/-- A command word or a response word: 16 bits, bit 0 the least significant (R9, R61, R64). -/
abbrev Word := BitVec 16

end Sys2Proof
end

