-- ==== Sys2Proof/Config.lean ====
section
/-! DEFINITION. What is fixed when the block is built (00_scope.md R2, R5, R8), and the one free value of the
model: the contents of storage before anything is written (10_state.md R35, 70_reset_and_hazards.md R131). -/

namespace Sys2Proof

/-- `VIEW_MODEL` (R8): does a port see the other port's index at once, or through a view that may lag? -/
inductive ViewModel where
  | coherent
  | lagged
  deriving DecidableEq, Repr

/-- One configuration (R2). `slots` is the spec's `C`, which the spec leaves OPEN (R5, D2) and a model takes as an
argument: it is plain data here, held in State and never changed by a step. Legal values are checked in
WellFormed.lean; `coherent` is the default view model (R8). -/
structure Config where
  slots : Nat
  view  : ViewModel := .coherent
  deriving DecidableEq, Repr

/-- The configuration `State.reset` is built with. DESIGN CHOICE (unsafe, log 1): the spec gives `C` no value; 4 is
the `C` of its test vectors. -/
def Config.atReset : Config := { slots := 4 }

/-- What a storage slot holds before any `push` has written it: a free draw (R131, I1). FREE VALUE (safe, log 2):
it has no body, so nothing can be proved of it. -/
opaque Config.initialSlot : Nat → Byte

end Sys2Proof
end

