-- ==== Sys2Proof/Syntax.lean ====
section
/-! DEFINITION. The commands of the block: one constructor for each row of spec/opcode_table.json
(30_encoding.md R62). -/

namespace Sys2Proof

/-- A command (R62). No command has an operand but PUSH's data byte (R63). -/
inductive Instr where
  /-- PUSH, `push(byte)`: `data` is `ARG`, used as it is (R63, 40_producer_port.md R80). -/
  | push (data : Byte)
  /-- POP, `pop() -> byte | Empty` (41_consumer_port.md R90). -/
  | pop
  /-- ISEMPTY, `isEmpty()` (41_consumer_port.md R91). -/
  | isempty
  deriving DecidableEq, Repr

end Sys2Proof
end

