-- ==== Sys2Proof/WellFormed.lean ====
section
/-! DEFINITION. What makes a configuration and a command legal (00_scope.md R5, 30_encoding.md R63). The check of a
line of assembler text stands beside the assembler (Machine/Assembler.lean). -/

namespace Sys2Proof

/-- Legal values of `C` are `C >= 2`; "a configuration with `C < 2` is refused" (R5, I10). `C` need not be a power
of two. -/
def Config.wellFormed (c : Config) : Bool := decide (2 ≤ c.slots)

/-- Every command of this type is legal: PUSH's operand is a byte and "all 256 values are legal", and the other two
have no operand (R63). The words that are not commands never become one: see Decode.lean. -/
def Instr.wellFormed : Instr → Bool
  | .push _ => true
  | .pop => true
  | .isempty => true

end Sys2Proof
end

