-- ==== Sys2Proof/Decode.lean ====
section
/-! DEFINITION. The command word and the response word (30_encoding.md R61 to R69): their fields, the decoder, total
on all 65,536 words, the table of match and mask, and the encoder. -/

namespace Sys2Proof

/-- `v[15:8]` of a 16-bit word: OP of a command, ST of a response (R9, R61, R64). -/
def highByte (w : Word) : Byte := w.extractLsb' 8 8

/-- `v[7:0]` of a 16-bit word: ARG of a command, VAL of a response (R9, R61, R64). -/
def lowByte (w : Word) : Byte := w.extractLsb' 0 8

/-- `{hi, lo}`: concatenation with `hi` in the high bits (R9). -/
def wordOf (hi lo : Byte) : Word := hi ++ lo

/-- The two ports of the block (R60): P takes the producer's commands, Q the consumer's. -/
inductive Port where
  | p
  | q
  deriving DecidableEq, Repr

/-- Why a word is reserved: the bullets of R67, the last two taken together. -/
inductive Reserved where
  /-- OP is 0x00 or in 0x04 to 0xFF. -/
  | unusedOp
  /-- OP is 0x02 or 0x03 and ARG is not 0x00. -/
  | nonzeroArg
  deriving DecidableEq, Repr

/-- OP of PUSH, POP and ISEMPTY (R62). -/
def Instr.op : Instr → Byte
  | .push _ => 0x01#8
  | .pop => 0x02#8
  | .isempty => 0x03#8

/-- ARG: PUSH's data byte as it is, 0x00 for the other two (R63). -/
def Instr.arg : Instr → Byte
  | .push b => b
  | .pop => 0x00#8
  | .isempty => 0x00#8

/-- The one port on which a command may be issued (R62, 60_exceptions.md R119). -/
def Instr.port : Instr → Port
  | .push _ => .p
  | .pop => .q
  | .isempty => .q

/-- The decoder of R68. It reads no state (R69). -/
def decode (cmd : Word) : Except Reserved Instr :=
  let op := highByte cmd
  let arg := lowByte cmd
  if op = 0x01#8 then .ok (.push arg)
  else if op = 0x02#8 then (if arg = 0x00#8 then .ok .pop else .error .nonzeroArg)
  else if op = 0x03#8 then (if arg = 0x00#8 then .ok .isempty else .error .nonzeroArg)
  else .error .unusedOp

/-- The words that decode to no command (R67). -/
def isReserved (cmd : Word) : Bool :=
  match decode cmd with
  | .ok _ => false
  | .error _ => true

/-- The command word of a command: `{OP, ARG}` (R61). -/
def encode (i : Instr) : Word := wordOf i.op i.arg

/-- One row of R68's table of match and mask. -/
structure OpcodeRow where
  name  : String
  bits  : Word
  mask  : Word
  deriving DecidableEq, Repr

/-- A word matches a row when its bits under the mask are the row's. -/
def OpcodeRow.covers (r : OpcodeRow) (cmd : Word) : Bool := decide (cmd &&& r.mask = r.bits)

/-- R68: "Match and mask, for a table-driven decoder". -/
def opcodeRows : List OpcodeRow :=
  [ { name := "push", bits := 0x0100#16, mask := 0xFF00#16 },
    { name := "pop", bits := 0x0200#16, mask := 0xFFFF#16 },
    { name := "isempty", bits := 0x0300#16, mask := 0xFFFF#16 } ]

/-- The discriminated results of R65. -/
inductive Status where
  /-- The command was performed. -/
  | ok
  /-- POP found no byte. -/
  | empty
  /-- PUSH found the buffer full and dropped the byte. -/
  | overflow
  /-- The command word is reserved; nothing was done. -/
  | errReserved
  /-- A defined command arrived on the wrong port; nothing was done. -/
  | errPort
  deriving DecidableEq, Repr

/-- The ST values of R65. -/
def Status.code : Status → Byte
  | .ok => 0x00#8
  | .empty => 0x01#8
  | .overflow => 0x02#8
  | .errReserved => 0xE0#8
  | .errPort => 0xE1#8

/-- The response word `{ST[7:0], VAL[7:0]}` (R64). -/
def responseWord (st : Status) (val : Byte) : Word := wordOf st.code val

/-- A row's bits as a 16-bit command word. The block's words are whole words on a port and are never laid out as
bytes (20_memory.md R42), and no command is longer than 16 bits (R61; log 19). -/
def tableWord (nbits w : Nat) : Word := BitVec.ofNat 16 (w % 2 ^ nbits)

/-- The command this decoder reads from a row's bits; none for a reserved word, and none for a row longer than the
one command format (R61). -/
def decodeTableWord (nbits w : Nat) : Option Instr :=
  if nbits ≤ 16 then (decode (tableWord nbits w)).toOption else none

end Sys2Proof
end

