-- ==== Sys2Proof/Machine/State.lean ====
section
/-! DEFINITION. The state of one instance (10_state.md), with the schedule and the record the environment gives it,
as plain data. -/

namespace Sys2Proof.Machine

/-- Storage: the slots that a `push` has written, by slot number, strictly rising. A slot not listed has not been
written, and reads as the free draw `Config.initialSlot` (R131; log 2). -/
abbrev Memory := List Host.Cell

/-- The kinds of a fault record (10_state.md R25). -/
inductive FaultKind where
  /-- A reserved word (60_exceptions.md R112). -/
  | errReserved
  /-- A defined command on the wrong port (60_exceptions.md R113). -/
  | errPort
  deriving DecidableEq, Repr

/-- One record `(kind, port, cmd)` of the fault log (R25). -/
structure FaultRecord where
  kind : FaultKind
  port : Port
  cmd  : Word
  deriving DecidableEq, Repr

/-- The agents that take steps on an instance (20_memory.md R46). -/
inductive Agent where
  /-- P, the producer. -/
  | p
  /-- Q, the consumer. -/
  | q
  /-- The sync agent that copies `head` to `hv` (R51). -/
  | syncP
  /-- The sync agent that copies `tail` to `tv` (R51). -/
  | syncQ
  /-- RST, the reset environment. -/
  | rst
  deriving DecidableEq, Repr

/-- One atomic step of the block (R45, R51, R130). -/
inductive Move where
  /-- A command word issued on a port. -/
  | command (port : Port) (cmd : Word)
  /-- SyncP (`.p`) or SyncQ (`.q`): named by the port whose view is written. -/
  | sync (port : Port)
  /-- RESET. -/
  | reset
  deriving DecidableEq, Repr

/-- What an observer of the instance saw of one step: a command with its response (30_encoding.md R60), a sync step,
or a reset. -/
inductive Event where
  | answered (port : Port) (cmd rsp : Word)
  | synced (port : Port)
  | reset
  deriving DecidableEq, Repr

/-- The state. The spec's tuple is `(mem, head, tail, hv, tv, faults)` (10_state.md); `cfg` holds its two parameters
(00_scope.md R5, R8). The other fields are the model's: what the agents have still to do, the transaction being
answered, and the record of what was answered (log 3, log 4, log 5). -/
structure State where
  /-- `C` and `VIEW_MODEL`. No step changes it (R2: "never resized"). -/
  cfg      : Config
  /-- R20. -/
  mem      : Memory
  /-- R21, consumer-owned: the slot of the oldest stored byte. An index is an unsigned number (R7). -/
  head     : Nat
  /-- R22, producer-owned: the slot the next accepted `push` writes. -/
  tail     : Nat
  /-- `hv` under `lagged` (R24). Unused under `coherent`, where `hv` is `head`: read it through `State.hv`. -/
  hvLag    : Nat
  /-- `tv` under `lagged` (R24). Unused under `coherent`, where `tv` is `tail`: read it through `State.tv`. -/
  tvLag    : Nat
  /-- R25, oldest first. -/
  faults   : List FaultRecord
  /-- The port of the transaction the block is answering (30_encoding.md R60). -/
  port     : Port
  /-- The command word of that transaction. -/
  cmd      : Word
  /-- Every step so far, newest first (70_reset_and_hazards.md R142: "the list of responses each port received"). -/
  history  : List Event
  /-- The words P has still to issue, next first (20_memory.md R47). -/
  issueP   : List Word
  /-- The words Q has still to issue, next first (R47). -/
  issueQ   : List Word
  /-- Which agent takes each coming step (R46, R47, I3). -/
  schedule : List Agent
  deriving DecidableEq, Repr

/-- Why the machine stops with a fault. The spec's own faults are answers after which the block goes on
(60_exceptions.md R118), so they are not among these. -/
inductive Fault where
  /-- An access to a slot outside `0 .. C-1`, which 00_scope.md R11 gives no meaning. Raised by `readSlot` and
  `writeSlot`, that is by POP and an accepted PUSH, in states that break 10_state.md R34 only. Safe (log 7). -/
  | noSuchSlot (index : Nat)
  deriving DecidableEq, Repr

/-- Why the machine refuses to step. -/
inductive Refusal where
  /-- A command that has no meaning yet. Raised by an arm of `exec`; safe. No arm raises it now. -/
  | notModelled (mnemonic : String)
  /-- `C < 2`: "a configuration with `C < 2` has no model" (60_exceptions.md R110). Raised by `exec` and `step`;
  safe (log 8). -/
  | capacityBelowTwo
  deriving DecidableEq, Repr

/-- The initial state of a run (70_reset_and_hazards.md R131): the state after RESET, `faults` empty, any
configuration and any contents of storage; the last three arguments are what the agents will do. -/
def State.boot (cfg : Config) (mem : Memory) (issueP issueQ : List Word) (schedule : List Agent) : State where
  cfg := cfg
  mem := mem
  head := 0
  tail := 0
  hvLag := 0
  tvLag := 0
  faults := []
  port := .p
  cmd := 0x0000#16
  history := []
  issueP := issueP
  issueQ := issueQ
  schedule := schedule

/-- The machine right after reset, with nothing written and nothing yet asked of it. Its configuration and the values
of the model's own fields are DESIGN CHOICES (log 1, log 3, log 4, log 5). -/
def State.reset : State := State.boot Config.atReset [] [] [] []

end Sys2Proof.Machine
end

