-- ==== Sys2Proof/Machine/Operands.lean ====
section
/-! DEFINITION. Index arithmetic (00_scope.md R7, R10), the views (10_state.md R24) and the slot a command reaches
(20_memory.md R40). -/

namespace Sys2Proof.Machine

/-- `modC(x)` for every integer `x`, negative ones too (R10). -/
def modC (c : Nat) (x : Int) : Nat := (x % (c : Int)).toNat

/-- `inc(i) = modC(i + 1)` (R10). -/
def inc (c i : Nat) : Nat := modC c ((i : Int) + 1)

/-- The spec's `dist(a, b) = modC(a - b)` (R10). -/
def distC (c a b : Nat) : Nat := modC c ((a : Int) - (b : Int))

/-- `W = ceil(log2(C))` (R7), for the legal `C >= 2`. -/
def indexWidth (c : Nat) : Nat := Nat.log2 (c - 1) + 1

/-- `hv`, the producer's copy of `head`: a name for `head` under `coherent`, a register under `lagged` (R24). -/
def State.hv (s : State) : Nat :=
  match s.cfg.view with
  | .coherent => s.head
  | .lagged => s.hvLag

/-- `tv`, the consumer's copy of `tail` (R24). -/
def State.tv (s : State) : Nat :=
  match s.cfg.view with
  | .coherent => s.tail
  | .lagged => s.tvLag

/-- The slot an accepted PUSH writes: slot `tail` (R40). -/
def State.pushSlot (s : State) : Nat := s.tail

/-- The slot a POP that returns a byte reads: slot `head` (R40). -/
def State.popSlot (s : State) : Nat := s.head

end Sys2Proof.Machine
end

