-- ==== Sys2Proof/Machine/Flags.lean ====
section
/-! DEFINITION. The derived conditions (10_state.md R26 to R29). The block stores no flags (R33): `empty` and `full`
are functions of the indices. -/

namespace Sys2Proof.Machine

/-- The occupied count, from the true indices (R26). -/
def State.count (s : State) : Nat := distC s.cfg.slots s.tail s.head

/-- The producer's estimate, `modC(tail - hv)` (R26). -/
def State.producerCount (s : State) : Nat := distC s.cfg.slots s.tail s.hv

/-- The consumer's estimate, `modC(tv - head)` (R26). -/
def State.consumerCount (s : State) : Nat := distC s.cfg.slots s.tv s.head

/-- Full: `count = C - 1` (R27). -/
def State.full (s : State) : Bool := decide (s.count = s.cfg.slots - 1)

/-- Empty: `count = 0` (R28). -/
def State.empty (s : State) : Bool := decide (s.count = 0)

/-- The producer's test of fullness, `inc(tail) = hv` (R27, R50). -/
def State.seesFull (s : State) : Bool := decide (inc s.cfg.slots s.tail = s.hv)

/-- The consumer's test of emptiness, `head = tv` (R28, R50). -/
def State.seesEmpty (s : State) : Bool := decide (s.head = s.tv)

/-- The slots that hold stored bytes, oldest first: `modC(head + k)` for `k = 0 .. count - 1` (00_scope.md R12). -/
def State.usedSlots (s : State) : List Nat :=
  (List.range s.count).map fun (k : Nat) => modC s.cfg.slots ((s.head : Int) + (k : Int))

/-- A free slot: any slot that is not a used one (R29). -/
def State.freeSlot (s : State) (i : Nat) : Bool := decide (i < s.cfg.slots) && !(s.usedSlots.contains i)

end Sys2Proof.Machine
end

