-- ==== Sys2Proof/Machine/Ops.lean ====
section
/-! DEFINITION. The operations the meanings are written with: storage access, the response, raising a fault, the port
check, the sync steps and the reset event (00_scope.md R11). -/

namespace Sys2Proof.Machine

/-- The one canonical form of storage: slot numbers strictly rising. -/
abbrev Memory.wf (m : Memory) : Prop := (m.map Prod.fst).Pairwise (· < ·)

/-- What has been written at a slot; none if nothing has. -/
def Memory.written : Memory → Nat → Option Byte
  | [], _ => none
  | (j, v) :: m, i => if j = i then some v else Memory.written m i

/-- Write one slot, keeping the slots in rising order. -/
def Memory.write : Memory → Nat → Byte → Memory
  | [], i, v => [(i, v)]
  | (j, w) :: m, i, v =>
    if i < j then (i, v) :: (j, w) :: m
    else if i = j then (i, v) :: m
    else (j, w) :: Memory.write m i v

/-- What a slot holds: the byte last written to it, or the free draw it held at the start (R131). This is the one
definition of what an unlisted slot reads as. -/
def Memory.read (m : Memory) (i : Nat) : Byte := (Memory.written m i).getD (Config.initialSlot i)

/-- `mem[i]` as a value, for the statements. -/
def State.slot (s : State) (i : Nat) : Byte := Memory.read s.mem i

/-- `MemRead(i, 1)`, with `0 <= i < C` (R11). -/
def readSlot (s : State) (i : Nat) : Except Fault Byte :=
  if i < s.cfg.slots then .ok (s.slot i) else .error (.noSuchSlot i)

/-- `MemWrite(i, 1, v)`, with `0 <= i < C` (R11). -/
def writeSlot (s : State) (i : Nat) (v : Byte) : Except Fault State :=
  if i < s.cfg.slots then .ok { s with mem := Memory.write s.mem i v } else .error (.noSuchSlot i)

/-- The stored bytes, oldest first: `queue(s)` (R12). -/
def State.queue (s : State) : List Byte := s.usedSlots.map s.slot

/-- `respond(st, val)`: the response word goes back on the port that issued the command (R11). -/
def respond (st : Status) (val : Byte) (s : State) : State :=
  { s with history := .answered s.port s.cmd (responseWord st val) :: s.history }

/-- The status that answers a fault (30_encoding.md R65). -/
def FaultKind.status : FaultKind → Status
  | .errReserved => .errReserved
  | .errPort => .errPort

/-- `raise <Fault>(cmd)`: append the record, answer the code with VAL 0x00, change nothing else (R11;
60_exceptions.md R112, R113, R117). There is no trap and no return from one (R117, R118). -/
def raiseFault (k : FaultKind) (s : State) : State :=
  respond k.status 0x00#8 { s with faults := s.faults ++ [{ kind := k, port := s.port, cmd := s.cmd }] }

/-- A configuration with `C < 2` has no model (R5, 60_exceptions.md R110; log 8). -/
def guarded (s : State) (o : Host.Outcome State Fault Refusal) : Host.Outcome State Fault Refusal :=
  if s.cfg.wellFormed then o else .refused .capacityBelowTwo

/-- The port check of 60_exceptions.md R114: a command's body runs only on its own port; on the other it is
ERR_PORT (R113). -/
def onPort (pt : Port) (body : State → Host.Outcome State Fault Refusal) (s : State) :
    Host.Outcome State Fault Refusal :=
  guarded s (if s.port = pt then body s else .next (raiseFault .errPort s))

/-- A sync step is enabled only under `lagged`, and only when the view differs from the index (20_memory.md R51). -/
def syncEnabled (pt : Port) (s : State) : Bool :=
  match s.cfg.view, pt with
  | .coherent, _ => false
  | .lagged, .p => decide (s.hvLag ≠ s.head)
  | .lagged, .q => decide (s.tvLag ≠ s.tail)

/-- SyncP: `hv <- head`. SyncQ: `tv <- tail` (R51). A step that is not enabled is not taken. -/
def syncView (pt : Port) (s : State) : State :=
  if syncEnabled pt s then
    match pt with
    | .p => { s with hvLag := s.head, history := .synced .p :: s.history }
    | .q => { s with tvLag := s.tail, history := .synced .q :: s.history }
  else s

/-- The reset event (70_reset_and_hazards.md R130): it writes the indices and the views, and neither `mem` nor
`faults`. -/
def resetEvent (s : State) : State :=
  { s with head := 0, tail := 0, hvLag := 0, tvLag := 0, history := .reset :: s.history }

end Sys2Proof.Machine
end

