-- ==== Sys2Proof/Machine/Consumer.lean ====
section
/-! DEFINITION. The consumer port: POP and ISEMPTY (41_consumer_port.md). -/

namespace Sys2Proof.Machine

/-- The body of POP (R90): EMPTY if the consumer sees the buffer empty, else read slot `head` and advance `head`. -/
def popBody (s : State) : Host.Outcome State Fault Refusal :=
  if s.seesEmpty then .next (respond .empty 0x00#8 s)
  else
    match readSlot s s.popSlot with
    | .error f => .fault f
    | .ok b => .next (respond .ok b { s with head := inc s.cfg.slots s.head })

/-- The body of ISEMPTY (R91): VAL is 0x01 if the consumer sees the buffer empty, 0x00 if not. -/
def isemptyBody (s : State) : Host.Outcome State Fault Refusal :=
  .next (respond .ok (if s.seesEmpty then 0x01#8 else 0x00#8) s)

/-- POP, port Q only (R90). -/
def execPop (s : State) : Host.Outcome State Fault Refusal :=
  onPort .q popBody s

/-- ISEMPTY, port Q only (R91). -/
def execIsempty (s : State) : Host.Outcome State Fault Refusal :=
  onPort .q isemptyBody s

end Sys2Proof.Machine
end

