-- ==== Sys2Proof/Machine/Producer.lean ====
section
/-! DEFINITION. The producer port: PUSH (40_producer_port.md). -/

namespace Sys2Proof.Machine

/-- The body of PUSH (R80): drop the new byte if the producer sees the buffer full, else write slot `tail` and
advance `tail`. -/
def pushBody (b : Byte) (s : State) : Host.Outcome State Fault Refusal :=
  if s.seesFull then .next (respond .overflow 0x00#8 s)
  else
    match writeSlot s s.pushSlot b with
    | .error f => .fault f
    | .ok t => .next (respond .ok 0x00#8 { t with tail := inc t.cfg.slots t.tail })

/-- PUSH, port P only (R80). -/
def execPush (b : Byte) (s : State) : Host.Outcome State Fault Refusal :=
  onPort .p (pushBody b) s

end Sys2Proof.Machine
end

