-- ==== Sys2Proof/Machine/Dispatch.lean ====
section
/-! DEFINITION. One arm for each command (60_exceptions.md R114). -/

namespace Sys2Proof.Machine

def exec (i : Instr) (s : State) : Host.Outcome State Fault Refusal :=
  match i with
  | .push b => Sys2Proof.Machine.execPush b s
  | .pop => Sys2Proof.Machine.execPop s
  | .isempty => Sys2Proof.Machine.execIsempty s

end Sys2Proof.Machine
end

