-- ==== Sys2Proof/Machine/Agents.lean ====
section
/-! DEFINITION. The steps of the agents (20_memory.md R46, R47): a command presented on a port and answered
(60_exceptions.md R114), a sync step, a reset, and an agent's turn. -/

namespace Sys2Proof.Machine

/-- A transaction begins: the word stands on the port (30_encoding.md R60). -/
def present (pt : Port) (w : Word) (s : State) : State := { s with port := pt, cmd := w }

/-- The dispatch of R114 for the word on the port: a reserved word is ERR_RESERVED on either port, before any port
check. -/
def dispatch (s : State) : Host.Outcome State Fault Refusal :=
  match decode s.cmd with
  | .error _ => .next (raiseFault .errReserved s)
  | .ok i => exec i s

/-- One atomic step of the block (R45). -/
def move (m : Move) (s : State) : Host.Outcome State Fault Refusal :=
  match m with
  | .command pt w => dispatch (present pt w s)
  | .sync pt => .next (syncView pt s)
  | .reset => .next (resetEvent s)

/-- An agent's turn. P and Q issue their next word, if they have one (R47: in the order they issued them); an agent
with nothing to do takes no step (log 3). -/
def turn (a : Agent) (s : State) : Host.Outcome State Fault Refusal :=
  match a with
  | .p =>
    match s.issueP with
    | [] => .next s
    | w :: ws => move (.command .p w) { s with issueP := ws }
  | .q =>
    match s.issueQ with
    | [] => .next s
    | w :: ws => move (.command .q w) { s with issueQ := ws }
  | .syncP => move (.sync .p) s
  | .syncQ => move (.sync .q) s
  | .rst => move .reset s

/-- The next step of the interleaving: the turn of the agent the schedule names. When it names none, the run has ended
and the block holds its state (70_reset_and_hazards.md R142; log 3). -/
def nextTurn (s : State) : Host.Outcome State Fault Refusal :=
  match s.schedule with
  | [] => .next s
  | a :: rest => turn a { s with schedule := rest }

/-- The port a word is issued on when nothing else says: its command's own port (30_encoding.md R62, R70); P for a
reserved word, which is answered alike on both (log 10). -/
def issuePort (w : Word) : Port :=
  match decode w with
  | .ok i => i.port
  | .error _ => .p

/-- Put a word first among those its port will issue, and its agent first in the schedule. -/
def issueNext (w : Word) (s : State) : State :=
  match issuePort w with
  | .p => { s with issueP := w :: s.issueP, schedule := .p :: s.schedule }
  | .q => { s with issueQ := w :: s.issueQ, schedule := .q :: s.schedule }

end Sys2Proof.Machine
end

