-- ==== Sys2Proof/Machine/Step.lean ====
section
/-! DEFINITION. One step of the machine, and how a command is placed before it. -/

namespace Sys2Proof.Machine

/-- One step of the interleaving (20_memory.md R47). A configuration with `C < 2` is refused (00_scope.md R5). -/
def step (s : State) : Host.Outcome State Fault Refusal := guarded s (nextTurn s)

/-- The state whose next step issues the word of a table row: the block fetches nothing (20_memory.md R56), so the
word is placed with the agent of its port (log 10). -/
def State.withFetchWord (s : State) (nbits w : Nat) : State := issueNext (tableWord nbits w) s

end Sys2Proof.Machine
end

