-- ==== Sys2Proof/Machine/Assembler.lean ====
section
/-! DEFINITION. The assembler syntax (30_encoding.md R70) and the pseudo-instruction `push.s` (R71). The points R70
leaves open (spaces, digits, an unprefixed reserved word) are log 14. -/

namespace Sys2Proof.Machine

/-- What one line says. Operands are numbers as written: the range is checked, never wrapped (R70). -/
inductive AsmStmt where
  /-- `push <imm8>`. -/
  | push (imm : Nat)
  | pop
  | isempty
  /-- `.word 0xHHHH`: "any raw 16-bit command word". -/
  | word (raw : Nat)
  /-- `push.s "<text>"` (R71): the codes of the characters. -/
  | pushText (codes : List Nat)
  deriving DecidableEq, Repr

/-- One line: an optional port name, and a statement. -/
structure AsmLine where
  port : Option Port
  stmt : AsmStmt
  deriving DecidableEq, Repr

/-- Why a line is not assembled. -/
inductive AsmError where
  /-- "A value outside 0 to 255 is an assembly error, not a wrap" (R70). -/
  | operandRange
  /-- A reserved word with no port named: R62 gives it none (log 14). -/
  | noPort
  /-- Text that is no line of R70. -/
  | badText
  deriving DecidableEq, Repr

/-- Operands in range: 8 bits for data, 16 for a raw word (R70). -/
def AsmStmt.wellFormed : AsmStmt → Bool
  | .push imm => decide (imm < 256)
  | .pop => true
  | .isempty => true
  | .word raw => decide (raw < 65536)
  | .pushText codes => codes.all fun c => decide (c < 256)

/-- The command words of a statement; `push.s` is one PUSH for each byte, in order (R71). -/
def AsmStmt.words : AsmStmt → List Word
  | .push imm => [encode (.push (BitVec.ofNat 8 imm))]
  | .pop => [encode .pop]
  | .isempty => [encode .isempty]
  | .word raw => [BitVec.ofNat 16 raw]
  | .pushText codes => codes.map fun c => encode (.push (BitVec.ofNat 8 c))

/-- The port a word is issued on: the one named, else its command's own (R62, R70). -/
def asmPort (named : Option Port) (w : Word) : Except AsmError Port :=
  match named, decode w with
  | some pt, _ => .ok pt
  | none, .ok i => .ok i.port
  | none, .error _ => .error .noPort

/-- The transactions of a line, in order. -/
def assemble (l : AsmLine) : Except AsmError (List (Port × Word)) :=
  if l.stmt.wellFormed then l.stmt.words.mapM fun w => (asmPort l.port w).map fun pt => (pt, w)
  else .error .operandRange

/-! ### Reading the text of a line -/

/-- A digit of a base up to 16. -/
def digitValue (base : Nat) (c : Char) : Option Nat :=
  let n := c.toNat
  let d := if 48 ≤ n ∧ n ≤ 57 then n - 48 else if 65 ≤ n ∧ n ≤ 70 then n - 55 else if 97 ≤ n ∧ n ≤ 102 then n - 87 else 16
  if d < base then some d else none

/-- A number in a base, most significant digit first; at least one digit. -/
def numberValue (base : Nat) (cs : List Char) : Option Nat :=
  match cs with
  | [] => none
  | _ => cs.foldlM (fun acc c => (digitValue base c).map fun d => acc * base + d) 0

/-- One character of a literal or of a text, with the escapes of R70, and what follows it. -/
def charCode : List Char → Option (Nat × List Char)
  | '\\' :: 'n' :: cs => some (0x0A, cs)
  | '\\' :: 'r' :: cs => some (0x0D, cs)
  | '\\' :: '\\' :: cs => some (0x5C, cs)
  | '\\' :: '\'' :: cs => some (0x27, cs)
  | '\\' :: 'x' :: a :: b :: cs => (numberValue 16 [a, b]).map fun n => (n, cs)
  | '\\' :: _ => none
  | c :: cs => some (c.toNat, cs)
  | [] => none

/-- `<imm8>` in one of its three forms: hexadecimal, a character literal, decimal (R70). -/
def readImm : List Char → Option Nat
  | '0' :: 'x' :: ds => numberValue 16 ds
  | '\'' :: '\'' :: _ => none
  | '\'' :: cs =>
    match charCode cs with
    | some (n, ['\'']) => some n
    | _ => none
  | ds => numberValue 10 ds

/-- The text of `push.s` after its opening quote, up to the closing quote that ends the line. The first argument
bounds the number of characters. -/
def readText : Nat → List Char → Option (List Nat)
  | 0, _ => none
  | n + 1, cs =>
    match cs with
    | '"' :: rest => if rest = [] then some [] else none
    | _ =>
      match charCode cs with
      | some (c, rest) => (readText n rest).map (c :: ·)
      | none => none

/-- Spaces and tabs separate the parts of a line (log 14). -/
def isBlank (c : Char) : Bool := c == ' ' || c == '\t'

/-- What follows a word and at least one space. -/
def operandOf (word cs : List Char) : Option (List Char) :=
  match cs.drop word.length with
  | c :: rest => if word.isPrefixOf cs && isBlank c then some (rest.dropWhile isBlank) else none
  | [] => none

/-- The operand of `.word`: `0x` and four hexadecimal digits (R70). -/
def readRaw : List Char → Option Nat
  | ['0', 'x', a, b, c, d] => numberValue 16 [a, b, c, d]
  | _ => none

/-- One statement. Mnemonics are lower case (R70). -/
def readStmt (cs : List Char) : Option AsmStmt :=
  if cs = ['p', 'o', 'p'] then some .pop
  else if cs = ['i', 's', 'e', 'm', 'p', 't', 'y'] then some .isempty
  else
    match operandOf ['p', 'u', 's', 'h'] cs, operandOf ['.', 'w', 'o', 'r', 'd'] cs,
        operandOf ['p', 'u', 's', 'h', '.', 's'] cs with
    | some operand, _, _ => (readImm operand).map .push
    | none, some operand, _ => (readRaw operand).map .word
    | none, none, some ('"' :: text) => (readText (text.length + 1) text).map .pushText
    | none, none, _ => none

/-- One line: an optional `P:` or `Q:` and a statement (R70). -/
def readLine (cs : List Char) : Except AsmError AsmLine :=
  let body := ((cs.dropWhile isBlank).reverse.dropWhile isBlank).reverse
  let parts : Option Port × List Char :=
    match body with
    | 'P' :: ':' :: rest => (some .p, rest.dropWhile isBlank)
    | 'Q' :: ':' :: rest => (some .q, rest.dropWhile isBlank)
    | _ => (none, body)
  match readStmt parts.2 with
  | some stmt => .ok { port := parts.1, stmt := stmt }
  | none => .error .badText

/-- From the text of a line to its transactions. -/
def assembleText (cs : List Char) : Except AsmError (List (Port × Word)) :=
  match readLine cs with
  | .ok l => assemble l
  | .error e => .error e

end Sys2Proof.Machine
end

