-- ==== Sys2Proof/Machine/History.lean ====
section
/-! DEFINITION. What the record of a run says: the bytes pushed and popped (20_memory.md R48), the totals of
10_state.md R34, and what each port issued and received (R47, 70_reset_and_hazards.md R142). The record is newest
first; the lists read from it are oldest first. -/

namespace Sys2Proof.Machine

/-- The events since the latest reset, newest first: the totals "count from the latest reset" (70 R132). -/
def sinceReset (h : List Event) : List Event := h.takeWhile fun e => decide (e ≠ .reset)

/-- The byte of a `push` answered OK on P (R48). -/
def acceptedByte : Event → Option Byte
  | .answered .p cmd rsp =>
    match decode cmd with
    | .ok (.push b) => if highByte rsp = Status.ok.code then some b else none
    | _ => none
  | _ => none

/-- The byte returned by a `pop` answered OK on Q (R48). -/
def returnedByte : Event → Option Byte
  | .answered .q cmd rsp =>
    match decode cmd with
    | .ok .pop => if highByte rsp = Status.ok.code then some (lowByte rsp) else none
    | _ => none
  | _ => none

/-- `pushed`: the bytes whose `push` was answered OK, in the order of their steps (R48). -/
def pushedBytes (h : List Event) : List Byte := (sinceReset h).reverse.filterMap acceptedByte

/-- `popped`: the bytes returned by `pop` answers of OK, in order (R48). -/
def poppedBytes (h : List Event) : List Byte := (sinceReset h).reverse.filterMap returnedByte

/-- `T`: the accepted pushes since reset (R34). -/
def totalPushes (h : List Event) : Nat := (pushedBytes h).length

/-- `H`: the accepted pops since reset (R34). -/
def totalPops (h : List Event) : Nat := (poppedBytes h).length

/-- The events up to the latest sync step of a port, newest first; none if it has not synced since reset. -/
def upToSync (pt : Port) (h : List Event) : List Event :=
  (sinceReset h).dropWhile fun e => decide (e ≠ .synced pt)

/-- `HV`: the value of `H` when `hv` was last synced, 0 after reset (R34). -/
def popsAtSync (h : List Event) : Nat := ((upToSync .p h).filterMap returnedByte).length

/-- `TV`: the value of `T` when `tv` was last synced, 0 after reset (R34). -/
def pushesAtSync (h : List Event) : Nat := ((upToSync .q h).filterMap acceptedByte).length

/-- The command word of an event on a port. -/
def issuedWord (pt : Port) : Event → Option Word
  | .answered p' cmd _ => if p' = pt then some cmd else none
  | _ => none

/-- The response word of an event on a port. -/
def receivedWord (pt : Port) : Event → Option Word
  | .answered p' _ rsp => if p' = pt then some rsp else none
  | _ => none

/-- The words a port's agent has issued, over the whole run, in order (R47). -/
def issuedOn (pt : Port) (h : List Event) : List Word := h.reverse.filterMap (issuedWord pt)

/-- The responses a port has received, over the whole run, in order (70 R142). -/
def receivedOn (pt : Port) (h : List Event) : List Word := h.reverse.filterMap (receivedWord pt)

/-- The response of the latest step, if it was a command. -/
def State.lastResponse (s : State) : Option Word :=
  match s.history with
  | .answered _ _ rsp :: _ => some rsp
  | _ => none

end Sys2Proof.Machine
end

