-- ==== Sys2Proof/Machine/HostScript.lean ====
section
/-! DEFINITION. The host script notation (30_encoding.md R72): the control flow of an agent that drives the ports. It
is no part of the block, and only the commands it issues are encoded. The points R72 leaves open are log 15. -/

namespace Sys2Proof.Machine

/-- What a host variable holds: an unbounded integer, a byte list, or a response word bound by `r <- <command>`. -/
inductive ScriptValue where
  | int (n : Int)
  | bytes (bs : List Byte)
  | response (rsp : Word)
  deriving DecidableEq, Repr

/-- The host variables, by number. -/
abbrev ScriptEnv := List (Nat × ScriptValue)

/-- An expression of a script. -/
inductive ScriptExpr where
  | lit (n : Int)
  /-- The empty byte list. -/
  | nil
  | var (x : Nat)
  /-- `r.st`. -/
  | st (x : Nat)
  /-- `r.val`. -/
  | val (x : Nat)
  /-- The length of a byte list. -/
  | length (e : ScriptExpr)
  | add (a b : ScriptExpr)
  deriving DecidableEq, Repr

/-- A condition: "`==`, `!=`, `<` and `>=`" (R72), and both of two. -/
inductive ScriptCond where
  | eq (a b : ScriptExpr)
  | ne (a b : ScriptExpr)
  | lt (a b : ScriptExpr)
  | ge (a b : ScriptExpr)
  | both (c d : ScriptCond)
  deriving DecidableEq, Repr

/-- A command of a script: PUSH of a computed byte, POP, ISEMPTY, or a raw word. -/
inductive ScriptCommand where
  | push (e : ScriptExpr)
  | pop
  | isempty
  | word (raw : Word)
  deriving DecidableEq, Repr

/-- A statement of a script. -/
inductive Script where
  | skip
  | seq (a b : Script)
  /-- A command on a port, with the variable its response is bound to, if any. -/
  | issue (port : Port) (into : Option Nat) (c : ScriptCommand)
  | assign (x : Nat) (e : ScriptExpr)
  /-- `append(list, byte)`. -/
  | append (x : Nat) (e : ScriptExpr)
  | loop (c : ScriptCond) (body : Script)
  | branch (c : ScriptCond) (yes no : Script)
  /-- `break`. -/
  | leave
  /-- `repeat <n>`. -/
  | times (n : Nat) (body : Script)
  deriving DecidableEq, Repr

/-- Why a script does not end. -/
inductive ScriptStop where
  /-- A variable not yet bound, a value of the wrong kind, or a byte out of range. -/
  | badValue
  | outOfFuel
  | fault (r : Fault)
  | refused (r : Refusal)
  deriving DecidableEq, Repr

/-- The value of a variable; the latest binding stands first. -/
def scriptLookup : ScriptEnv → Nat → Option ScriptValue
  | [], _ => none
  | (y, v) :: env, x => if y = x then some v else scriptLookup env x

/-- The value of an expression; none where it has none. Fields of a response read as unsigned numbers (R9). -/
def scriptEval (env : ScriptEnv) : ScriptExpr → Option ScriptValue
  | .lit n => some (.int n)
  | .nil => some (.bytes [])
  | .var x => scriptLookup env x
  | .st x =>
    match scriptLookup env x with
    | some (.response rsp) => some (.int (highByte rsp).toNat)
    | _ => none
  | .val x =>
    match scriptLookup env x with
    | some (.response rsp) => some (.int (lowByte rsp).toNat)
    | _ => none
  | .length e =>
    match scriptEval env e with
    | some (.bytes bs) => some (.int bs.length)
    | _ => none
  | .add a b =>
    match scriptEval env a, scriptEval env b with
    | some (.int m), some (.int n) => some (.int (m + n))
    | _, _ => none

/-- An expression as a byte; none where its value is outside 0 to 255 (R70: not a wrap). -/
def scriptByte (env : ScriptEnv) (e : ScriptExpr) : Option Byte :=
  match scriptEval env e with
  | some (.int n) => if 0 ≤ n ∧ n < 256 then some (BitVec.ofNat 8 n.toNat) else none
  | _ => none

/-- The truth of a condition; none where its sides have no value of one kind. -/
def scriptHolds (env : ScriptEnv) : ScriptCond → Option Bool
  | .eq a b =>
    match scriptEval env a, scriptEval env b with
    | some v, some w => some (decide (v = w))
    | _, _ => none
  | .ne a b =>
    match scriptEval env a, scriptEval env b with
    | some v, some w => some (decide (v ≠ w))
    | _, _ => none
  | .lt a b =>
    match scriptEval env a, scriptEval env b with
    | some (.int m), some (.int n) => some (decide (m < n))
    | _, _ => none
  | .ge a b =>
    match scriptEval env a, scriptEval env b with
    | some (.int m), some (.int n) => some (decide (n ≤ m))
    | _, _ => none
  | .both c d =>
    match scriptHolds env c, scriptHolds env d with
    | some x, some y => some (x && y)
    | _, _ => none

/-- The word a command encodes to. -/
def scriptWord (env : ScriptEnv) : ScriptCommand → Option Word
  | .push e => (scriptByte env e).map fun b => encode (.push b)
  | .pop => some (encode .pop)
  | .isempty => some (encode .isempty)
  | .word raw => some raw

/-- The agent of a port. -/
def portAgent : Port → Agent
  | .p => .p
  | .q => .q

/-- The turns the schedule gives other agents before this port's next one: a script's commands interleave with theirs
(20_memory.md R47). -/
def turnsBefore (pt : Port) : List Agent → State → Host.Outcome State Fault Refusal
  | [], s => .next { s with schedule := [] }
  | a :: rest, s =>
    if a = portAgent pt then .next { s with schedule := rest }
    else
      match turn a s with
      | .next t => turnsBefore pt rest t
      | .fault r => .fault r
      | .refused r => .refused r

/-- Issue a word on a port when the schedule comes to it, and give the response. -/
def scriptIssue (pt : Port) (w : Word) (s : State) : Except ScriptStop (Word × State) :=
  match guarded s (turnsBefore pt s.schedule s) with
  | .fault r => .error (.fault r)
  | .refused r => .error (.refused r)
  | .next t =>
    match move (.command pt w) t with
    | .fault r => .error (.fault r)
    | .refused r => .error (.refused r)
    | .next u =>
      match u.lastResponse with
      | some rsp => .ok (rsp, u)
      | none => .error .badValue

/-- Run a script with bounded depth. The answer says whether it ended by `break`. -/
def runScript : Nat → Script → ScriptEnv → State → Except ScriptStop (Bool × ScriptEnv × State)
  | 0, _, _, _ => .error .outOfFuel
  | fuel + 1, script, env, s =>
    match script with
    | .skip => .ok (false, env, s)
    | .seq a b =>
      match runScript fuel a env s with
      | .ok (false, env', s') => runScript fuel b env' s'
      | other => other
    | .issue pt into c =>
      match scriptWord env c with
      | none => .error .badValue
      | some w =>
        match scriptIssue pt w s with
        | .error e => .error e
        | .ok (rsp, s') =>
          match into with
          | none => .ok (false, env, s')
          | some x => .ok (false, (x, .response rsp) :: env, s')
    | .assign x e =>
      match scriptEval env e with
      | some v => .ok (false, (x, v) :: env, s)
      | none => .error .badValue
    | .append x e =>
      match scriptLookup env x, scriptByte env e with
      | some (.bytes bs), some b => .ok (false, (x, .bytes (bs ++ [b])) :: env, s)
      | _, _ => .error .badValue
    | .branch c yes no =>
      match scriptHolds env c with
      | some true => runScript fuel yes env s
      | some false => runScript fuel no env s
      | none => .error .badValue
    | .leave => .ok (true, env, s)
    | .loop c body =>
      match scriptHolds env c with
      | none => .error .badValue
      | some false => .ok (false, env, s)
      | some true =>
        match runScript fuel body env s with
        | .ok (false, env', s') => runScript fuel (.loop c body) env' s'
        | .ok (true, env', s') => .ok (false, env', s')
        | .error e => .error e
    | .times 0 _ => .ok (false, env, s)
    | .times (n + 1) body =>
      match runScript fuel body env s with
      | .ok (false, env', s') => runScript fuel (.times n body) env' s'
      | .ok (true, env', s') => .ok (false, env', s')
      | .error e => .error e

end Sys2Proof.Machine
end

