-- ==== Sys2Proof/Machine/Ordering.lean ====
section
/-! DEFINITION. The block at the grain of 20_memory.md R49: each accepted command in its two visible parts, the slot
access and then the index write, with the other port's steps allowed in between. The statements tie it to the atomic
steps of R45 (log 16). -/

namespace Sys2Proof.Machine

/-- How far the producer is with its command. -/
inductive ProducerStage where
  /-- No command in flight. -/
  | idle
  /-- The byte is in slot `tail`, and the new `tail` is not yet visible (R49 item 1). -/
  | stored (data : Byte)
  deriving DecidableEq, Repr

/-- How far the consumer is with its command. -/
inductive ConsumerStage where
  /-- No command in flight. -/
  | idle
  /-- Slot `head` has been read, and the new `head` is not yet visible (R49 item 2). -/
  | loaded (data : Byte)
  deriving DecidableEq, Repr

/-- The block with commands part way through, one at most on each port (30_encoding.md R60). -/
structure SplitState where
  block    : State
  producer : ProducerStage
  consumer : ConsumerStage
  deriving DecidableEq, Repr

/-- One visible part of a command, or a sync step. There is no reset among these: none is applied while a command is
in flight (70_reset_and_hazards.md R133 item 4). -/
inductive HalfStep where
  /-- PUSH begins: test fullness, and store the byte or answer OVERFLOW. -/
  | storeByte (data : Byte)
  /-- PUSH ends: publish `tail` in one write (R49 item 4) and answer OK. -/
  | publishTail
  /-- POP begins: test emptiness, and read the byte or answer EMPTY. -/
  | loadByte
  /-- POP ends: publish `head` in one write and answer OK. -/
  | publishHead
  /-- ISEMPTY: one read of the index and the answer. -/
  | askEmpty
  /-- SyncP or SyncQ. -/
  | sync (port : Port)
  deriving DecidableEq, Repr

/-- One half-step; none where the port is not at the point the half-step starts from. -/
def halfStep (x : HalfStep) (m : SplitState) : Option SplitState :=
  match x, m.producer, m.consumer with
  | .storeByte b, .idle, _ =>
    if m.block.seesFull then
      some { m with block := respond .overflow 0x00#8 (present .p (encode (.push b)) m.block) }
    else
      some { m with block := { m.block with mem := Memory.write m.block.mem m.block.tail b }, producer := .stored b }
  | .publishTail, .stored b, _ =>
    let s := present .p (encode (.push b)) m.block
    some { m with block := respond .ok 0x00#8 { s with tail := inc s.cfg.slots s.tail }, producer := .idle }
  | .loadByte, _, .idle =>
    if m.block.seesEmpty then
      some { m with block := respond .empty 0x00#8 (present .q (encode .pop) m.block) }
    else
      some { m with consumer := .loaded (m.block.slot m.block.head) }
  | .publishHead, _, .loaded b =>
    let s := present .q (encode .pop) m.block
    some { m with block := respond .ok b { s with head := inc s.cfg.slots s.head }, consumer := .idle }
  | .askEmpty, _, .idle =>
    let s := present .q (encode .isempty) m.block
    some { m with block := respond .ok (if s.seesEmpty then 0x01#8 else 0x00#8) s }
  | .sync pt, _, _ => some { m with block := syncView pt m.block }
  | _, _, _ => none

end Sys2Proof.Machine
end

