-- ==== Sys2Proof/Safety.lean ====
section
/-! DEFINITION. What the statements say of a state and of a run: the invariants of 10_state.md R34, the FIFO law
(20_memory.md R48), a clean run (R25), the end of a run (70_reset_and_hazards.md R142), executions and fairness
(R47, R53), and when two states cannot be told apart (R29). -/

namespace Sys2Proof.Machine

/-- Storage in its canonical form, listing slots of `0 .. C-1` only (R20). -/
abbrev State.StorageInv (s : State) : Prop :=
  Memory.wf s.mem ∧ ∀ c ∈ s.mem, c.1 < s.cfg.slots

/-- R34: `head = modC(H)`, `tail = modC(T)` and `0 <= T - H <= C - 1`. -/
abbrev State.IndexInv (s : State) : Prop :=
  s.head = modC s.cfg.slots (totalPops s.history) ∧
  s.tail = modC s.cfg.slots (totalPushes s.history) ∧
  totalPops s.history ≤ totalPushes s.history ∧
  totalPushes s.history ≤ totalPops s.history + (s.cfg.slots - 1)

/-- R34, last item: under `lagged`, `hv = modC(HV)`, `tv = modC(TV)`, `HV <= H`, `T - HV <= C - 1` and
`H <= TV <= T`. -/
abbrev State.ViewInv (s : State) : Prop :=
  s.cfg.view = .lagged →
    s.hvLag = modC s.cfg.slots (popsAtSync s.history) ∧
    s.tvLag = modC s.cfg.slots (pushesAtSync s.history) ∧
    popsAtSync s.history ≤ totalPops s.history ∧
    totalPushes s.history ≤ popsAtSync s.history + (s.cfg.slots - 1) ∧
    totalPops s.history ≤ pushesAtSync s.history ∧
    pushesAtSync s.history ≤ totalPushes s.history

/-- R48: `pushed = popped ++ queue(s)`. -/
abbrev State.FifoLaw (s : State) : Prop :=
  pushedBytes s.history = poppedBytes s.history ++ s.queue

/-- The invariant of the machine: a legal configuration (R5), and what R20, R34 and R48 say of every reachable
state. -/
abbrev State.Inv (s : State) : Prop :=
  s.cfg.wellFormed = true ∧ s.StorageInv ∧ s.IndexInv ∧ s.ViewInv ∧ s.FifoLaw

/-- "A run with a fault recorded satisfies no claim" (60_exceptions.md R110; 10_state.md R25). -/
def State.clean (s : State) : Bool := decide (s.faults = [])

/-- A run has ended: P and Q have each issued their last command and received its response, and RST takes no further
step (R142). -/
def State.ended (s : State) : Bool :=
  decide (s.issueP = []) && decide (s.issueQ = []) && !(s.schedule.contains .rst)

/-- The observable end state (R142): `queue(s)`, the responses each port received, and `faults`. -/
structure Observation where
  queue     : List Byte
  responseP : List Word
  responseQ : List Word
  faults    : List FaultRecord
  deriving DecidableEq, Repr

/-- What can be observed of a state (R142). -/
def State.observed (s : State) : Observation where
  queue := s.queue
  responseP := receivedOn .p s.history
  responseQ := receivedOn .q s.history
  faults := s.faults

/-- An endless execution: one interleaving of atomic steps (20_memory.md R47), with the step taken at each point. -/
def Execution (run : Nat → State) (label : Nat → Move) : Prop :=
  ∀ n, move (label n) (run n) = .next (run (n + 1))

/-- Weak fairness of a sync step: "A sync step that stays enabled is eventually taken" (R53). -/
def WeaklyFair (pt : Port) (run : Nat → State) (label : Nat → Move) : Prop :=
  ∀ n, (∀ m, n ≤ m → syncEnabled pt (run m) = true) → ∃ m, n ≤ m ∧ label m = .sync pt

/-- The result of a list of atomic steps, from the first to the last. -/
def moves : List Move → State → Host.Outcome State Fault Refusal
  | [], s => .next s
  | m :: ms, s =>
    match move m s with
    | .next t => moves ms t
    | .fault r => .fault r
    | .refused r => .refused r

/-- Two states that answer alike: the same configuration, stored bytes and estimates (00_scope.md R12). They may keep
the bytes in different slots, and hold anything in the free ones (10_state.md R29). -/
structure LooksLike (s t : State) : Prop where
  cfg      : s.cfg = t.cfg
  queue    : s.queue = t.queue
  producer : s.producerCount = t.producerCount
  consumer : s.consumerCount = t.consumerCount

/-- The same state of a `coherent` build (00_scope.md R8). -/
def State.asCoherent (s : State) : State := { s with cfg := { s.cfg with view := .coherent } }

/-- The block's own state is unchanged (60_exceptions.md R112, R113: "State. Unchanged"): the indices, the views and
every byte of storage. -/
structure SameBlock (s t : State) : Prop where
  head  : t.head = s.head
  tail  : t.tail = s.tail
  hvLag : t.hvLag = s.hvLag
  tvLag : t.tvLag = s.tvLag
  slot  : ∀ i, t.slot i = s.slot i

/-- What no command writes: the configuration, the transaction on the port, and what the agents have still to do. -/
structure SameSetting (s t : State) : Prop where
  cfg      : t.cfg = s.cfg
  port     : t.port = s.port
  cmd      : t.cmd = s.cmd
  issueP   : t.issueP = s.issueP
  issueQ   : t.issueQ = s.issueQ
  schedule : t.schedule = s.schedule

/-- A state of the half-step machine stands for an atomic state: they agree but for the slot whose byte is stored and
not yet published, and each command part way through is one the atomic state would perform (20_memory.md R45, R49). -/
structure StandsFor (m : SplitState) (s : State) : Prop where
  cfg      : s.cfg = m.block.cfg
  head     : s.head = m.block.head
  tail     : s.tail = m.block.tail
  hvLag    : s.hvLag = m.block.hvLag
  tvLag    : s.tvLag = m.block.tvLag
  faults   : s.faults = m.block.faults
  history  : s.history = m.block.history
  storage  : Memory.wf m.block.mem
  slots    : ∀ i, (m.producer = .idle ∨ i ≠ m.block.tail) → s.slot i = m.block.slot i
  stored   : ∀ b, m.producer = .stored b → s.seesFull = false ∧ m.block.slot m.block.tail = b
  loaded   : ∀ b, m.consumer = .loaded b → s.seesEmpty = false ∧ s.slot s.head = b

end Sys2Proof.Machine
end

