-- ==== Sys2Proof/Certificates/Slice0/Obligations.lean ====
section
/-! DEFINITION. The statements for the provers, each from the rules of spec/ that its docstring names. -/

open Sys2Proof Sys2Proof.Machine

/-! ### Words -/

/-- Words of 95_test_vectors.md and 30_encoding.md R71, written out, decode to the commands they stand for. -/
def Obligations.SpecWordsDecode : Prop :=
  decode 0x0124#16 = .ok (.push 0x24#8) ∧ decode 0x0147#16 = .ok (.push 0x47#8) ∧
  decode 0x010A#16 = .ok (.push 0x0A#8) ∧ decode 0x01FF#16 = .ok (.push 0xFF#8) ∧
  decode 0x0200#16 = .ok .pop ∧ decode 0x0300#16 = .ok .isempty ∧
  isReserved 0x0000#16 = true ∧ isReserved 0x0400#16 = true ∧ isReserved 0xFFFF#16 = true ∧
  isReserved 0x0201#16 = true ∧ isReserved 0x0380#16 = true

/-- Every legal command is what its word decodes to (30_encoding.md R61 to R63, R68). -/
def Obligations.EncodedCommandsDecodeBack : Prop :=
  ∀ i : Instr, i.wellFormed = true →
    decode (encode i) = .ok i ∧ decodeTableWord 16 (encode i).toNat = some i

/-- No word has two meanings, and no reserved word has one (30_encoding.md R67). -/
def Obligations.DecodedWordsHaveOneEncoding : Prop :=
  ∀ w : Word, (∀ i, decode w = .ok i → encode i = w) ∧ (isReserved w = true ↔ ∀ i, encode i ≠ w)

/-- R68: the decoder is total, follows the pseudocode, and agrees with the table of match and mask. -/
def Obligations.DecoderFollowsMatchAndMask : Prop :=
  ∀ w : Word,
    (highByte w = 0x01#8 → decode w = .ok (.push (lowByte w))) ∧
    (highByte w = 0x02#8 → lowByte w = 0x00#8 → decode w = .ok .pop) ∧
    (highByte w = 0x03#8 → lowByte w = 0x00#8 → decode w = .ok .isempty) ∧
    ((∃ b, decode w = .ok (.push b)) ↔ w &&& 0xFF00#16 = 0x0100#16) ∧
    (decode w = .ok .pop ↔ w &&& 0xFFFF#16 = 0x0200#16) ∧
    (decode w = .ok .isempty ↔ w &&& 0xFFFF#16 = 0x0300#16) ∧
    (isReserved w = true ↔ ∀ r ∈ opcodeRows, r.covers w = false)

/-- R67's counts: 258 words are defined, 510 are reserved by ARG, and 64,768 are reserved by OP, and the three lists
hold every word once (30_encoding.md R67; 90_conflicts.md C4). -/
def Obligations.ReservedWordsAreCounted : Prop :=
  ∃ defined byArg byOp : List Word,
    (defined ++ byArg ++ byOp).Nodup ∧ (∀ w, w ∈ defined ++ byArg ++ byOp) ∧
    defined.length = 258 ∧ byArg.length = 510 ∧ byOp.length = 64768 ∧
    (∀ w, w ∈ defined ↔ isReserved w = false) ∧
    (∀ w, w ∈ byArg ↔ (highByte w = 0x02#8 ∨ highByte w = 0x03#8) ∧ lowByte w ≠ 0x00#8) ∧
    (∀ w, w ∈ byOp ↔ highByte w = 0x00#8 ∨ 0x04#8 ≤ highByte w)

/-! ### A step runs a command -/

/-- When the schedule gives a port its turn and the next word of its agent decodes, the step is that command, with the
word and its port standing in the transaction and both lists moved on (20_memory.md R45, R47; 60_exceptions.md
R114). -/
def Obligations.StepRunsDecodedCommand : Prop :=
  ∀ (s : State) (i : Instr) (w : Word) (ws : List Word) (rest : List Agent),
    s.cfg.wellFormed = true → decode w = .ok i →
    (s.schedule = .p :: rest → s.issueP = w :: ws →
      step s = exec i { s with schedule := rest, issueP := ws, port := .p, cmd := w }) ∧
    (s.schedule = .q :: rest → s.issueQ = w :: ws →
      step s = exec i { s with schedule := rest, issueQ := ws, port := .q, cmd := w })

/-- A word placed by `withFetchWord` is the very next command, on its own port (30_encoding.md R62). -/
def Obligations.PlacedWordRunsNext : Prop :=
  ∀ (s : State) (i : Instr), s.cfg.wellFormed = true →
    step (s.withFetchWord 16 (encode i).toNat) = exec i { s with port := i.port, cmd := encode i }

/-- R112: a reserved word, on either port, is answered 0xE000, is recorded, and changes nothing else. -/
def Obligations.ReservedWordAnswersErrReserved : Prop :=
  ∀ (s : State) (pt : Port) (w : Word),
    ((highByte w ≠ 0x01#8 ∧ highByte w ≠ 0x02#8 ∧ highByte w ≠ 0x03#8) ∨
      ((highByte w = 0x02#8 ∨ highByte w = 0x03#8) ∧ lowByte w ≠ 0x00#8)) →
    ∃ t, move (.command pt w) s = .next t ∧
      t.faults = s.faults ++ [{ kind := .errReserved, port := pt, cmd := w }] ∧
      t.history = .answered pt w 0xE000#16 :: s.history ∧
      SameBlock s t ∧ SameSetting (present pt w s) t

/-- R113: a command on the wrong port is answered 0xE100, is recorded, and changes nothing else. -/
def Obligations.WrongPortAnswersErrPort : Prop :=
  ∀ (s : State) (i : Instr), s.cfg.wellFormed = true →
    (((∃ b, i = .push b) ∧ s.port = .q) ∨ ((i = .pop ∨ i = .isempty) ∧ s.port = .p)) →
    ∃ t, exec i s = .next t ∧
      t.faults = s.faults ++ [{ kind := .errPort, port := s.port, cmd := s.cmd }] ∧
      t.history = .answered s.port s.cmd 0xE100#16 :: s.history ∧
      SameBlock s t ∧ SameSetting s t

/-- R138: every command, on either port, is answered in its own step. -/
def Obligations.EveryCommandIsAnsweredAtOnce : Prop :=
  ∀ (s : State) (pt : Port) (w : Word),
    s.cfg.wellFormed = true → s.head < s.cfg.slots → s.tail < s.cfg.slots →
    ∃ t rsp, move (.command pt w) s = .next t ∧ t.history = .answered pt w rsp :: s.history

/-- R65: which ST values are produced, by which commands, and what each says: OK, the command was performed; EMPTY,
POP found no byte; OVERFLOW, PUSH found the buffer full and dropped the byte; the two errors, nothing was done. A fault
is logged for the two errors and for nothing else. -/
def Obligations.StatusIsProducedByItsCommand : Prop :=
  ∀ (s t : State) (pt : Port) (w : Word), move (.command pt w) s = .next t →
    ∃ rsp, t.history = .answered pt w rsp :: s.history ∧
      ((highByte rsp = 0x00#8 ∧
          (((∃ b, decode w = .ok (.push b)) ∧ pt = .p ∧ inc s.cfg.slots s.tail ≠ s.hv ∧
              t.tail = inc s.cfg.slots s.tail) ∨
            (decode w = .ok .pop ∧ pt = .q ∧ s.head ≠ s.tv ∧ t.head = inc s.cfg.slots s.head) ∨
            (decode w = .ok .isempty ∧ pt = .q ∧ SameBlock s t))) ∨
       (highByte rsp = 0x01#8 ∧ decode w = .ok .pop ∧ pt = .q ∧ s.head = s.tv ∧ SameBlock s t) ∨
       (highByte rsp = 0x02#8 ∧ (∃ b, decode w = .ok (.push b)) ∧ pt = .p ∧ inc s.cfg.slots s.tail = s.hv ∧
          SameBlock s t) ∨
       (highByte rsp = 0xE0#8 ∧ isReserved w = true ∧ SameBlock s t) ∨
       (highByte rsp = 0xE1#8 ∧ (∃ i, decode w = .ok i ∧ i.port ≠ pt) ∧ SameBlock s t)) ∧
      (highByte rsp = 0xE0#8 ∨ highByte rsp = 0xE1#8 ↔ t.faults ≠ s.faults)

/-- R66: VAL is the byte popped, the answer of ISEMPTY, or 0x00; and ST alone tells an EMPTY answer from a popped
byte. -/
def Obligations.ValueByteIsAsTheRuleSays : Prop :=
  ∀ (s t : State) (pt : Port) (w : Word), move (.command pt w) s = .next t →
    ∃ rsp, t.history = .answered pt w rsp :: s.history ∧
      (decode w = .ok .pop ∧ highByte rsp = 0x00#8 ∧ pt = .q → lowByte rsp = s.slot s.head) ∧
      (decode w = .ok .isempty ∧ highByte rsp = 0x00#8 ∧ pt = .q →
        lowByte rsp = if s.head = s.tv then 0x01#8 else 0x00#8) ∧
      (decode w = .ok .pop ∧ pt = .q → (highByte rsp = 0x01#8 ↔ s.head = s.tv) ∧
        (highByte rsp = 0x00#8 ↔ s.head ≠ s.tv)) ∧
      (¬((decode w = .ok .pop ∨ decode w = .ok .isempty) ∧ highByte rsp = 0x00#8 ∧ pt = .q) → lowByte rsp = 0x00#8)

/-! ### The three commands -/

/-- R80: PUSH on port P drops the byte when the producer sees the buffer full, and otherwise stores it in slot `tail`
and advances `tail`; everything else is unchanged. -/
def Obligations.PushStoresOrDrops : Prop :=
  ∀ (s : State) (b : Byte), s.cfg.wellFormed = true → Memory.wf s.mem → s.port = .p →
    decode (wordOf 0x01#8 b) = .ok (.push b) ∧
    (inc s.cfg.slots s.tail = s.hv →
      ∃ t, exec (.push b) s = .next t ∧ t.history = .answered .p s.cmd 0x0200#16 :: s.history ∧
        t.faults = s.faults ∧ SameBlock s t ∧ SameSetting s t) ∧
    (inc s.cfg.slots s.tail ≠ s.hv → s.tail < s.cfg.slots →
      ∃ t, exec (.push b) s = .next t ∧ t.history = .answered .p s.cmd 0x0000#16 :: s.history ∧
        t.slot s.tail = b ∧ (∀ j, j ≠ s.tail → t.slot j = s.slot j) ∧
        t.tail = inc s.cfg.slots s.tail ∧ t.head = s.head ∧ t.hvLag = s.hvLag ∧ t.tvLag = s.tvLag ∧
        t.faults = s.faults ∧ SameSetting s t)

/-- R90: POP on port Q answers EMPTY and changes nothing when the consumer sees the buffer empty, and otherwise returns
the byte of slot `head` and advances `head`; everything else is unchanged. -/
def Obligations.PopReturnsOldestOrEmpty : Prop :=
  ∀ (s : State), s.cfg.wellFormed = true → s.port = .q →
    decode 0x0200#16 = .ok .pop ∧
    (s.head = s.tv →
      ∃ t, exec .pop s = .next t ∧ t.history = .answered .q s.cmd 0x0100#16 :: s.history ∧
        t.faults = s.faults ∧ SameBlock s t ∧ SameSetting s t) ∧
    (s.head ≠ s.tv → s.head < s.cfg.slots →
      ∃ t, exec .pop s = .next t ∧ t.history = .answered .q s.cmd (wordOf 0x00#8 (s.slot s.head)) :: s.history ∧
        t.head = inc s.cfg.slots s.head ∧ t.tail = s.tail ∧ t.hvLag = s.hvLag ∧ t.tvLag = s.tvLag ∧
        (∀ j, t.slot j = s.slot j) ∧ t.faults = s.faults ∧ SameSetting s t)

/-- R91: ISEMPTY on port Q answers OK with 0x01 when the consumer sees the buffer empty and with 0x00 otherwise, and
writes no state. -/
def Obligations.IsemptyReportsWithoutChange : Prop :=
  ∀ (s : State), s.cfg.wellFormed = true → s.port = .q →
    decode 0x0300#16 = .ok .isempty ∧
    ∃ t, exec .isempty s = .next t ∧
      t.history = .answered .q s.cmd (if s.head = s.tv then 0x0001#16 else 0x0000#16) :: s.history ∧
      t.faults = s.faults ∧ SameBlock s t ∧ SameSetting s t

/-- The frame of PUSH in whatever form it completes, the wrong port included: it never writes `head`, a view, or any
slot but `tail` before the command; it writes that slot and `tail` only when it is accepted (40_producer_port.md R80;
60_exceptions.md R113). -/
def Obligations.PushFrame : Prop :=
  ∀ (s t : State) (b : Byte), Memory.wf s.mem → exec (.push b) s = .next t →
    t.head = s.head ∧ t.hvLag = s.hvLag ∧ t.tvLag = s.tvLag ∧ SameSetting s t ∧
    (∀ j, j ≠ s.pushSlot → t.slot j = s.slot j) ∧
    (s.port = .p → t.faults = s.faults) ∧
    (t.lastResponse ≠ some 0x0000#16 → t.tail = s.tail ∧ ∀ j, t.slot j = s.slot j)

/-- The frame of POP and ISEMPTY in whatever form they complete, the wrong port included: no slot, no view and not
`tail`; `head` only by a POP on Q the consumer does not see empty (41_consumer_port.md R90, R91;
60_exceptions.md R113). -/
def Obligations.ConsumerFrame : Prop :=
  ∀ (s t : State) (i : Instr), i = .pop ∨ i = .isempty → exec i s = .next t →
    t.tail = s.tail ∧ t.hvLag = s.hvLag ∧ t.tvLag = s.tvLag ∧ SameSetting s t ∧
    (∀ j, t.slot j = s.slot j) ∧
    (s.port = .q → t.faults = s.faults) ∧
    (t.head = s.head ∨ (i = .pop ∧ s.port = .q ∧ s.head ≠ s.tv ∧ t.head = inc s.cfg.slots s.head))

/-- 40_producer_port.md R81, an inference the spec marks as its own: a push never loses a byte accepted earlier; a dropped one moves no index and writes no slot. -/
def Obligations.PushNeverLosesAcceptedBytes : Prop :=
  ∀ (s t : State) (b : Byte), s.Inv → exec (.push b) s = .next t →
    (t.queue = s.queue ∨ (t.queue = s.queue ++ [b] ∧ t.lastResponse = some 0x0000#16)) ∧
    (t.lastResponse = some 0x0200#16 → t.queue = s.queue ∧ SameBlock s t)

/-- R44: a POP answered OK consumes the byte it returns, and ISEMPTY is idempotent. -/
def Obligations.PopConsumesAndIsemptyRepeats : Prop :=
  ∀ (s : State), s.Inv → s.port = .q →
    (∀ t, exec .pop s = .next t → s.seesEmpty = false → ∃ b, s.queue = b :: t.queue ∧
      t.lastResponse = some (wordOf 0x00#8 b)) ∧
    (∃ t u, exec .isempty s = .next t ∧ exec .isempty t = .next u ∧ u.lastResponse = t.lastResponse ∧
      SameBlock s u ∧ (s.count = 0 → t.lastResponse = some 0x0001#16))

/-- Where a command stops: it is refused in a configuration with fewer than two slots and in no other (00_scope.md R5,
60_exceptions.md R110), and it faults only by reaching a slot outside storage, in states that break 10_state.md R34
(log 7, the model's reading of 00_scope.md R11). -/
def Obligations.CommandsStopOnlyOutsideTheSpec : Prop :=
  ∀ (s : State) (i : Instr),
    ((∃ r, exec i s = .refused r) ↔ s.cfg.slots < 2) ∧
    ((∃ f, exec i s = .fault f) ↔
      2 ≤ s.cfg.slots ∧ s.port = i.port ∧
        (((∃ b, i = .push b) ∧ s.seesFull = false ∧ s.cfg.slots ≤ s.tail) ∨
         (i = .pop ∧ s.seesEmpty = false ∧ s.cfg.slots ≤ s.head)))

/-- A configuration with `C < 2` is refused by every step (00_scope.md R5, 60_exceptions.md R110; log 8). -/
def Obligations.SmallCapacityIsRefused : Prop :=
  ∀ s : State, s.cfg.slots < 2 → step s = .refused .capacityBelowTwo

/-! ### Indices and derived conditions -/

/-- R10: `modC` is the unique remainder, and `inc` and `distC` are built from it. -/
def Obligations.IndexArithmeticIsModuloCapacity : Prop :=
  ∀ (c : Nat) (x : Int), 0 < c →
    (modC c x < c ∧ (c : Int) ∣ x - modC c x ∧ ∀ r : Nat, r < c → (c : Int) ∣ x - r → r = modC c x) ∧
    (∀ i, inc c i = modC c ((i : Int) + 1)) ∧ (∀ a b : Nat, distC c a b = modC c ((a : Int) - b)) ∧
    modC 4 (-1) = 3 ∧ inc 4 3 = 0 ∧ distC 4 1 3 = 2

/-- `W = ceil(log2(C))`: every index fits in `W` bits, and in no fewer do all of them (00_scope.md R7). -/
def Obligations.IndexWidthIsLeast : Prop :=
  ∀ c : Nat, 2 ≤ c → (∀ i, i < c → i < 2 ^ indexWidth c) ∧ ∀ w, (∀ i, i < c → i < 2 ^ w) → indexWidth c ≤ w

/-- What R34 gives of the indices: their ranges, `count = T - H <= C - 1`, full and empty as R27 and R28 say, and at
least one free slot (10_state.md R26 to R29, R34; inferences the spec marks as its own). -/
def Obligations.OccupancyFollowsFromTotals : Prop :=
  ∀ s : State, s.Inv →
    s.head < s.cfg.slots ∧ s.tail < s.cfg.slots ∧ s.hv < s.cfg.slots ∧ s.tv < s.cfg.slots ∧
    s.count = totalPushes s.history - totalPops s.history ∧ s.count ≤ s.cfg.slots - 1 ∧
    s.queue.length = s.count ∧
    (s.full = true ↔ inc s.cfg.slots s.tail = s.head) ∧ (s.empty = true ↔ s.head = s.tail) ∧
    s.freeSlot s.tail = true

/-- 70_reset_and_hazards.md R139, an inference the spec marks as its own: a push is dropped exactly when the producer sees `count = C - 1`. -/
def Obligations.PushIsDroppedExactlyWhenSeenFull : Prop :=
  ∀ (s : State) (b : Byte), s.Inv → s.port = .p →
    ((∃ t, exec (.push b) s = .next t ∧ t.lastResponse = some 0x0200#16) ↔ s.producerCount = s.cfg.slots - 1) ∧
    (s.cfg.view = .coherent → s.producerCount = s.count)

/-! ### Reset -/

/-- R130: what the reset event writes, and what it leaves. -/
def Obligations.ResetEventClearsTheBuffer : Prop :=
  ∀ s : State, ∃ t, move .reset s = .next t ∧
    t.head = 0 ∧ t.tail = 0 ∧ t.hv = 0 ∧ t.tv = 0 ∧ t.count = 0 ∧ t.queue = [] ∧
    (∀ i, t.slot i = s.slot i) ∧ t.faults = s.faults ∧
    receivedOn .p t.history = receivedOn .p s.history ∧ receivedOn .q t.history = receivedOn .q s.history ∧
    t.cfg = s.cfg

/-- After a reset the invariant holds, whatever the indices and the record were before (70_reset_and_hazards.md
R132, R133). -/
def Obligations.ResetEventEstablishesInvariant : Prop :=
  ∀ s t : State, s.cfg.wellFormed = true → s.StorageInv → move .reset s = .next t → t.Inv

/-- The values of 10_state.md R35, in the initial state of every configuration and in `State.reset`. Its 4 slots and
its empty lists are the model's choices (log 1, log 3). -/
def Obligations.InitialStateHasResetValues : Prop :=
  (∀ (cfg : Config) (mem : Memory) (ip iq : List Word) (sch : List Agent),
    let s := State.boot cfg mem ip iq sch
    s.head = 0 ∧ s.tail = 0 ∧ s.hv = 0 ∧ s.tv = 0 ∧ s.faults = [] ∧ s.count = 0 ∧ s.empty = true ∧
      (cfg.wellFormed = true → s.full = false)) ∧
  State.reset = State.boot { slots := 4, view := .coherent } [] [] [] []

/-- The invariant holds in the initial state of every legal configuration, with any contents of storage, and in
`State.reset` (70_reset_and_hazards.md R131). -/
def Obligations.InitialStateMeetsInvariant : Prop :=
  (∀ (cfg : Config) (mem : Memory) (ip iq : List Word) (sch : List Agent),
    cfg.wellFormed = true → (State.boot cfg mem ip iq sch).StorageInv → (State.boot cfg mem ip iq sch).Inv) ∧
  State.reset.Inv

/-! ### Every step -/

/-- Every step keeps the invariant: storage in its canonical form, the indices and views of 10_state.md R34, and the
FIFO law of 20_memory.md R48 (both inferences the spec marks as its own). -/
def Obligations.StepKeepsInvariant : Prop :=
  ∀ s t : State, s.Inv → step s = .next t → t.Inv

/-- From a state that meets the invariant a step always answers a next state: the block has no stuck state
(60_exceptions.md R110). -/
def Obligations.StepAlwaysCompletes : Prop :=
  ∀ s : State, s.Inv → ∃ t, step s = .next t

/-- The FIFO law, 20_memory.md R48, an inference the spec marks as its own: it holds at every point of every run of every legal configuration, whatever the agents do. -/
def Obligations.FifoLawOnEveryRun : Prop :=
  ∀ (cfg : Config) (mem : Memory) (ip iq : List Word) (sch : List Agent) (n : Nat),
    cfg.wellFormed = true → (State.boot cfg mem ip iq sch).StorageInv →
    ∃ s, core.run n (State.boot cfg mem ip iq sch) = .next s ∧
      poppedBytes s.history <+: pushedBytes s.history ∧
      pushedBytes s.history = poppedBytes s.history ++ s.queue ∧
      ∀ (pt : Port) (w : Word) (t : State), move (.command pt w) s = .next t →
        (t.lastResponse = some 0x0200#16 →
          pushedBytes t.history = pushedBytes s.history ∧ t.queue = s.queue) ∧
        (t.lastResponse = some 0x0100#16 → poppedBytes t.history = poppedBytes s.history)

/-- R23: only a `push` on P writes `tail`, only a `pop` on Q writes `head`, and reset writes both. -/
def Obligations.EachIndexHasOneWriter : Prop :=
  ∀ (s t : State) (m : Move), move m s = .next t →
    (t.tail ≠ s.tail → m = .reset ∨ ∃ w b, m = .command .p w ∧ decode w = .ok (.push b)) ∧
    (t.head ≠ s.head → m = .reset ∨ ∃ w, m = .command .q w ∧ decode w = .ok .pop)

/-- R20: a slot is written only by an accepted `push` on P, and only slot `tail`. -/
def Obligations.StorageHasOneWriter : Prop :=
  ∀ (s t : State) (m : Move) (j : Nat), Memory.wf s.mem → move m s = .next t → t.slot j ≠ s.slot j →
    j = s.tail ∧ j < s.cfg.slots ∧
    ∃ w b, m = .command .p w ∧ decode w = .ok (.push b) ∧ t.slot j = b ∧ t.lastResponse = some 0x0000#16

/-- 20_memory.md R47: each agent's commands are performed in the order it issued them, and the schedule alone says
whose turn it is: what has been issued and what is still to come make one list that no step changes. -/
def Obligations.IssueOrderIsKept : Prop :=
  ∀ s t : State, step s = .next t →
    issuedOn .p t.history ++ t.issueP = issuedOn .p s.history ++ s.issueP ∧
    issuedOn .q t.history ++ t.issueQ = issuedOn .q s.history ++ s.issueQ ∧
    t.schedule = s.schedule.tail ∧
    (t.issueP ≠ s.issueP → s.schedule.head? = some .p) ∧ (t.issueQ ≠ s.issueQ → s.schedule.head? = some .q)

/-- R118 and R25: the fault log only grows, by at most one record a step, and a record always comes with the fault
response to the command it names. -/
def Obligations.FaultLogOnlyGrows : Prop :=
  ∀ s t : State, step s = .next t →
    t.faults = s.faults ∨
    ∃ r : FaultRecord, t.faults = s.faults ++ [r] ∧ SameBlock s t ∧
      t.history = .answered r.port r.cmd (wordOf r.kind.status.code 0x00#8) :: s.history

/-- Whatever the fault log holds, a step does the same and appends the same: no command reads it, and "a fault leaves
no state in the block that changes later answers" (10_state.md R25; 60_exceptions.md R117, R118). -/
def Obligations.FaultsChangeNoLaterAnswer : Prop :=
  ∀ (s t : State) (fs : List FaultRecord), step s = .next t →
    ∃ u, step { s with faults := fs } = .next u ∧ u = { t with faults := u.faults } ∧
      ∀ d, t.faults = s.faults ++ d → u.faults = fs ++ d

/-- R142: after the end of a run nothing that can be observed changes. -/
def Obligations.EndedRunsAreSettled : Prop :=
  ∀ s t : State, s.ended = true → step s = .next t → t.ended = true ∧ t.observed = s.observed

/-! ### Interleaving -/

/-- 60_exceptions.md R115 (a) to (d), under `coherent`: PUSH and POP on a full buffer, PUSH and POP and PUSH and
ISEMPTY on an empty one, and a PUSH and a reset. Both orders run, with the answers the rule gives. -/
def Obligations.BothOrdersOfSimultaneousCommands : Prop :=
  ∀ (s : State) (b : Byte), s.Inv → s.cfg.view = .coherent →
    (s.full = true → ∃ o t u : State, ∃ y,
      s.queue.head? = some y ∧
      moves [.command .q 0x0200#16, .command .p (encode (.push b))] s = .next t ∧
      t.history = .answered .p (encode (.push b)) 0x0000#16 :: .answered .q 0x0200#16 (wordOf 0x00#8 y) :: s.history ∧
      t.queue = s.queue.tail ++ [b] ∧
      move (.command .p (encode (.push b))) s = .next o ∧ o.lastResponse = some 0x0200#16 ∧
      move (.command .q 0x0200#16) o = .next u ∧ u.lastResponse = some (wordOf 0x00#8 y) ∧
      u.queue = s.queue.tail) ∧
    (s.empty = true → ∃ t u v w : State,
      moves [.command .p (encode (.push b)), .command .q 0x0200#16] s = .next t ∧
      t.lastResponse = some (wordOf 0x00#8 b) ∧ t.queue = [] ∧
      moves [.command .q 0x0200#16, .command .p (encode (.push b))] s = .next u ∧
      u.history = .answered .p (encode (.push b)) 0x0000#16 :: .answered .q 0x0200#16 0x0100#16 :: s.history ∧
      u.queue = [b] ∧
      moves [.command .p (encode (.push b)), .command .q 0x0300#16] s = .next v ∧
      v.lastResponse = some 0x0000#16 ∧
      moves [.command .q 0x0300#16, .command .p (encode (.push b))] s = .next w ∧
      w.history = .answered .p (encode (.push b)) 0x0000#16 :: .answered .q 0x0300#16 0x0001#16 :: s.history) ∧
    (∃ t u : State,
      moves [.command .p (encode (.push b)), .reset] s = .next t ∧ t.queue = [] ∧
      moves [.reset, .command .p (encode (.push b))] s = .next u ∧
      u.lastResponse = some 0x0000#16 ∧ u.queue = [b])

/-- 41_consumer_port.md R92, an inference the spec marks as its own: once the consumer sees a byte, Q's next POP answers OK with the oldest byte, whatever P
and the sync steps do in between. -/
def Obligations.NonEmptyAnswerIsStable : Prop :=
  ∀ (s t : State) (ms : List Move), s.Inv → s.seesEmpty = false →
    (∀ m ∈ ms, (∃ w, m = .command .p w) ∨ ∃ pt, m = .sync pt) → moves ms s = .next t →
    ∃ u b, move (.command .q 0x0200#16) t = .next u ∧ u.lastResponse = some (wordOf 0x00#8 b) ∧
      s.queue.head? = some b

/-- 10_state.md R29 and 00_scope.md R12, inferences the spec marks as its own: the contents of free slots, and where in storage the bytes lie, are never
observable. Two states with the same configuration, stored bytes and estimates take every step alike: with the same
events, and to states that are again alike. -/
def Obligations.FreeSlotsAreUnobservable : Prop :=
  ∀ (s t s' t' : State) (m : Move), s.Inv → t.Inv → LooksLike s t →
    move m s = .next s' → move m t = .next t' →
    LooksLike s' t' ∧ ∃ es, s'.history = es ++ s.history ∧ t'.history = es ++ t.history

/-! ### Lagged views -/

/-- R24: under `coherent` the views are names for the indices and no sync step exists; under `lagged` a view is changed
only by its sync step and by reset. -/
def Obligations.ViewsChangeOnlyBySyncAndReset : Prop :=
  ∀ (s t : State) (m : Move), move m s = .next t →
    (s.cfg.view = .coherent → s.hv = s.head ∧ s.tv = s.tail ∧ t.hv = t.head ∧ t.tv = t.tail ∧
      ((∃ pt, m = .sync pt) → t = s)) ∧
    (s.cfg.view = .lagged →
      (t.hv ≠ s.hv → m = .sync .p ∨ m = .reset) ∧ (t.tv ≠ s.tv → m = .sync .q ∨ m = .reset))

/-- R51: under `lagged`, SyncP is enabled exactly when `hv` and `head` differ and then copies `head` to `hv`, and SyncQ
copies `tail` to `tv` likewise, with no response and nothing else changed; under `coherent` these steps are never
enabled, and the views equal the indices. -/
def Obligations.SyncStepsCopyTheIndices : Prop :=
  ∀ s : State,
    (s.cfg.view = .lagged →
      (syncEnabled .p s = true ↔ s.hv ≠ s.head) ∧ (syncEnabled .q s = true ↔ s.tv ≠ s.tail) ∧
      (s.hv ≠ s.head → ∃ t, move (.sync .p) s = .next t ∧ t.hv = s.head ∧
        t = { s with hvLag := s.head, history := .synced .p :: s.history }) ∧
      (s.tv ≠ s.tail → ∃ t, move (.sync .q) s = .next t ∧ t.tv = s.tail ∧
        t = { s with tvLag := s.tail, history := .synced .q :: s.history })) ∧
    (s.cfg.view = .coherent →
      s.hv = s.head ∧ s.tv = s.tail ∧ ∀ pt, syncEnabled pt s = false)

/-- 20_memory.md R52 (a) and (b), an inference the spec marks as its own: the producer's estimate is at least the count and the consumer's at most; a full buffer never
accepts, an empty one always reads empty, and a pop that is answered OK never reads a free slot. -/
def Obligations.EstimatesAreConservative : Prop :=
  ∀ s : State, s.Inv →
    s.count ≤ s.producerCount ∧ s.consumerCount ≤ s.count ∧
    (s.count = s.cfg.slots - 1 → s.seesFull = true) ∧ (s.count = 0 → s.seesEmpty = true) ∧
    (s.seesEmpty = false → s.freeSlot s.popSlot = false)

/-- 20_memory.md R52, an inference the spec marks as its own: a lagged run is a coherent run with some extra answers: a command under `lagged` either answers and acts as it
would under `coherent`, or is OVERFLOW on a buffer not full, EMPTY on one not empty, or ISEMPTY answering 0x01 on one
not empty, and writes nothing. -/
def Obligations.LaggedAddsOnlyConservativeAnswers : Prop :=
  ∀ (s t : State) (pt : Port) (w : Word), s.Inv → s.cfg.view = .lagged → move (.command pt w) s = .next t →
    move (.command pt w) s.asCoherent = .next t.asCoherent ∨
    (SameBlock s t ∧ t.faults = s.faults ∧
      ((pt = .p ∧ (∃ b, decode w = .ok (.push b)) ∧ t.lastResponse = some 0x0200#16 ∧ s.full = false) ∨
       (pt = .q ∧ decode w = .ok .pop ∧ t.lastResponse = some 0x0100#16 ∧ s.empty = false) ∨
       (pt = .q ∧ decode w = .ok .isempty ∧ t.lastResponse = some 0x0001#16 ∧ s.empty = false)))

/-- 20_memory.md R52, last sentence, an inference the spec marks as its own: fire both sync steps before a command, and a `lagged` block answers and acts as a `coherent`
one. -/
def Obligations.SyncedLaggedIsCoherent : Prop :=
  ∀ (s t u : State) (pt : Port) (w : Word), s.Inv → s.cfg.view = .lagged →
    moves [.sync .p, .sync .q, .command pt w] s = .next t → move (.command pt w) s.asCoherent = .next u →
    t.head = u.head ∧ t.tail = u.tail ∧ t.mem = u.mem ∧ t.queue = u.queue ∧ t.faults = u.faults ∧
    t.lastResponse = u.lastResponse

/-- R53: in an endless execution without a reset, with the sync steps weakly fair, a consumer does not see an empty
buffer for ever while bytes are stored, nor a producer a full one while there is room. -/
def Obligations.FairSyncEndsStaleAnswers : Prop :=
  ∀ (run : Nat → State) (label : Nat → Move), Execution run label → (run 0).Inv → (run 0).cfg.view = .lagged →
    (∀ n, label n ≠ .reset) →
    (WeaklyFair .q run label → 0 < (run 0).count → ∃ n, (run n).seesEmpty = false) ∧
    (WeaklyFair .p run label → (run 0).count < (run 0).cfg.slots - 1 → ∃ n, (run n).seesFull = false)

/-! ### The orders inside a command -/

/-- 20_memory.md R45 and R49: a build that stores before it publishes `tail`, reads before it publishes `head`, and
publishes each in one write, is exact for the atomic steps, with the other port's steps anywhere in between: each
half-step is no step, or one atomic step, of the state it stands for. -/
def Obligations.HalfStepsRefineAtomicCommands : Prop :=
  (∀ s : State, s.Inv → StandsFor { block := s, producer := .idle, consumer := .idle } s) ∧
  ∀ (m m' : SplitState) (s : State) (x : HalfStep), s.Inv → StandsFor m s → halfStep x m = some m' →
    StandsFor m' s ∨ ∃ mv t, move mv s = .next t ∧ StandsFor m' t

/-- The accepted command's atomic step is its index write (20_memory.md R45): before it, nothing the other port can
see has changed. -/
def Obligations.IndexWriteIsTheLinearizationPoint : Prop :=
  ∀ (m m' : SplitState) (s : State), s.Inv → StandsFor m s →
    (∀ b, m.producer = .stored b → halfStep .publishTail m = some m' →
      ∃ t, move (.command .p (encode (.push b))) s = .next t ∧ t.lastResponse = some 0x0000#16 ∧ StandsFor m' t) ∧
    (∀ b, m.consumer = .loaded b → halfStep .publishHead m = some m' →
      ∃ t, move (.command .q 0x0200#16) s = .next t ∧ t.lastResponse = some (wordOf 0x00#8 b) ∧ StandsFor m' t)

/-! ### The agents' notations -/

/-- 30_encoding.md R70: what one line of each kind assembles to, with or without a port named; an operand out of range
is an error. That a reserved word with no port named is an error too is the model's choice (log 14). -/
def Obligations.LinesAssembleToTheirWords : Prop :=
  ∀ (named : Option Port) (n : Nat),
    (n < 256 → assemble { port := named, stmt := .push n } =
      .ok [(named.getD .p, wordOf 0x01#8 (BitVec.ofNat 8 n))]) ∧
    (256 ≤ n → assemble { port := named, stmt := .push n } = .error .operandRange) ∧
    assemble { port := named, stmt := .pop } = .ok [(named.getD .q, 0x0200#16)] ∧
    assemble { port := named, stmt := .isempty } = .ok [(named.getD .q, 0x0300#16)] ∧
    (n < 65536 → ∀ pt, assemble { port := some pt, stmt := .word n } = .ok [(pt, BitVec.ofNat 16 n)]) ∧
    (n < 65536 → ∀ i, decode (BitVec.ofNat 16 n) = .ok i →
      assemble { port := none, stmt := .word n } = .ok [(i.port, BitVec.ofNat 16 n)]) ∧
    (n < 65536 → isReserved (BitVec.ofNat 16 n) = true →
      assemble { port := none, stmt := .word n } = .error .noPort)

/-- Lines of the spec's programs and of 30_encoding.md R70 and R71, written out, give the words and ports the spec gives
them. -/
def Obligations.SpecLinesAssemble : Prop :=
  assembleText ['P', ':', ' ', 'p', 'u', 's', 'h', ' ', '\'', 'A', '\''] = .ok [(.p, 0x0141#16)] ∧
  assembleText ['Q', ':', ' ', 'p', 'u', 's', 'h', ' ', '\'', 'B', '\''] = .ok [(.q, 0x0142#16)] ∧
  assembleText ['p', 'u', 's', 'h', ' ', '0', 'x', '1', '0'] = .ok [(.p, 0x0110#16)] ∧
  assembleText ['p', 'u', 's', 'h', ' ', '2', '5', '5'] = .ok [(.p, 0x01FF#16)] ∧
  assembleText ['p', 'u', 's', 'h', ' ', '2', '5', '6'] = .error .operandRange ∧
  assembleText ['p', 'u', 's', 'h', ' ', '\'', '\\', 'n', '\''] = .ok [(.p, 0x010A#16)] ∧
  assembleText ['p', 'o', 'p'] = .ok [(.q, 0x0200#16)] ∧
  assembleText ['Q', ':', ' ', 'i', 's', 'e', 'm', 'p', 't', 'y'] = .ok [(.q, 0x0300#16)] ∧
  assembleText ['Q', ':', ' ', '.', 'w', 'o', 'r', 'd', ' ', '0', 'x', '0', '2', '0', '1'] =
    .ok [(.q, 0x0201#16)] ∧
  assembleText ['p', 'u', 's', 'h', '.', 's', ' ', '"', '$', 'G', '\\', 'n', '"'] =
    .ok [(.p, 0x0124#16), (.p, 0x0147#16), (.p, 0x010A#16)] ∧
  assembleText ['P', 'O', 'P'] = .error .badText

/-- 30_encoding.md R71: `push.s` expands to one `push` for each byte of the text, in order, on P unless a port is
named. -/
def Obligations.TextExpandsToOnePushEach : Prop :=
  ∀ (named : Option Port) (codes : List Nat), (∀ c ∈ codes, c < 256) →
    assemble { port := named, stmt := .pushText codes } =
      .ok (codes.map fun c => (named.getD .p, wordOf 0x01#8 (BitVec.ofNat 8 c)))

/-- 30_encoding.md R72: `r <- <command>` issues the command on its port and binds the response, whose fields read as
ST and VAL; with no turns scheduled for others, the block takes that one step. -/
def Obligations.ScriptCommandBindsItsResponse : Prop :=
  ∀ (s : State) (pt : Port) (w : Word) (x fuel : Nat) (env : ScriptEnv), s.Inv → s.schedule = [] →
    ∃ t rsp, move (.command pt w) s = .next t ∧ t.lastResponse = some rsp ∧
      runScript (fuel + 1) (.issue pt (some x) (.word w)) env s = .ok (false, (x, .response rsp) :: env, t) ∧
      scriptEval ((x, .response rsp) :: env) (.st x) = some (.int (highByte rsp).toNat) ∧
      scriptEval ((x, .response rsp) :: env) (.val x) = some (.int (lowByte rsp).toNat)
end

