-- ==== Sys2Proof/Laws/Decode.lean ====
section
/-! SUPPORT. The fields of a word (00_scope.md R9) and of the two words of a transaction. -/

namespace Sys2Proof

@[simp] theorem highByte_wordOf (hi lo : Byte) : highByte (wordOf hi lo) = hi :=
  BitVec.extractLsb'_append_eq_left

@[simp] theorem lowByte_wordOf (hi lo : Byte) : lowByte (wordOf hi lo) = lo :=
  BitVec.extractLsb'_append_eq_right

/-- A word is its two bytes. -/
theorem wordOf_bytes (w : Word) : wordOf (highByte w) (lowByte w) = w := by
  unfold highByte lowByte wordOf
  apply BitVec.eq_of_getElem_eq
  intro i hi
  rw [BitVec.getElem_append]
  split
  · simp [BitVec.getLsbD_eq_getElem hi]
  · rw [BitVec.getElem_extractLsb', ← BitVec.getLsbD_eq_getElem hi]
    congr 1
    omega

/-- Two words with the same bytes are the same. -/
theorem word_ext {v w : Word} (h1 : highByte v = highByte w) (h2 : lowByte v = lowByte w) : v = w := by
  rw [← wordOf_bytes v, ← wordOf_bytes w, h1, h2]

@[simp] theorem highByte_responseWord (st : Status) (val : Byte) : highByte (responseWord st val) = st.code := by
  simp [responseWord]

@[simp] theorem lowByte_responseWord (st : Status) (val : Byte) : lowByte (responseWord st val) = val := by
  simp [responseWord]

/-- The ST values tell the results apart (30_encoding.md R65). -/
theorem Status.code_injective {a b : Status} (h : a.code = b.code) : a = b := by
  cases a <;> cases b <;> first | rfl | simp [Status.code] at h

/-- Everything `decode` can answer. -/
theorem decode_cases (w : Word) :
    (∃ b, decode w = .ok (.push b) ∧ highByte w = 0x01#8 ∧ lowByte w = b) ∨
    (decode w = .ok .pop ∧ highByte w = 0x02#8 ∧ lowByte w = 0x00#8) ∨
    (decode w = .ok .isempty ∧ highByte w = 0x03#8 ∧ lowByte w = 0x00#8) ∨
    (decode w = .error .nonzeroArg ∧ (highByte w = 0x02#8 ∨ highByte w = 0x03#8) ∧ lowByte w ≠ 0x00#8) ∨
    (decode w = .error .unusedOp ∧ highByte w ≠ 0x01#8 ∧ highByte w ≠ 0x02#8 ∧ highByte w ≠ 0x03#8) := by
  unfold decode
  by_cases h1 : highByte w = 0x01#8
  · simp [h1]
  by_cases h2 : highByte w = 0x02#8
  · by_cases h : lowByte w = 0x00#8 <;> simp [h2, h]
  by_cases h3 : highByte w = 0x03#8
  · by_cases h : lowByte w = 0x00#8 <;> simp [h3, h]
  simp [h1, h2, h3]

end Sys2Proof
end

