-- ==== Sys2Proof/Laws/History.lean ====
section
/-! SUPPORT. What one more event adds to the lists and totals read from the record of a run. -/

namespace Sys2Proof.Machine

variable (pt p' : Port) (cmd rsp : Word) (h : List Event)

@[simp] theorem sinceReset_nil : sinceReset [] = [] := rfl
@[simp] theorem sinceReset_reset : sinceReset (.reset :: h) = [] := rfl
@[simp] theorem sinceReset_answered :
    sinceReset (.answered pt cmd rsp :: h) = .answered pt cmd rsp :: sinceReset h := rfl
@[simp] theorem sinceReset_synced : sinceReset (.synced pt :: h) = .synced pt :: sinceReset h := rfl

@[simp] theorem pushedBytes_nil : pushedBytes [] = [] := rfl
@[simp] theorem pushedBytes_reset : pushedBytes (.reset :: h) = [] := rfl
@[simp] theorem pushedBytes_synced : pushedBytes (.synced pt :: h) = pushedBytes h := by
  simp [pushedBytes, acceptedByte]
theorem pushedBytes_answered :
    pushedBytes (.answered pt cmd rsp :: h) = pushedBytes h ++ (acceptedByte (.answered pt cmd rsp)).toList := by
  cases hb : acceptedByte (.answered pt cmd rsp) <;> simp [pushedBytes, hb]

@[simp] theorem poppedBytes_nil : poppedBytes [] = [] := rfl
@[simp] theorem poppedBytes_reset : poppedBytes (.reset :: h) = [] := rfl
@[simp] theorem poppedBytes_synced : poppedBytes (.synced pt :: h) = poppedBytes h := by
  simp [poppedBytes, returnedByte]
theorem poppedBytes_answered :
    poppedBytes (.answered pt cmd rsp :: h) = poppedBytes h ++ (returnedByte (.answered pt cmd rsp)).toList := by
  cases hb : returnedByte (.answered pt cmd rsp) <;> simp [poppedBytes, hb]

@[simp] theorem upToSync_nil : upToSync pt [] = [] := rfl
@[simp] theorem upToSync_reset : upToSync pt (.reset :: h) = [] := rfl
@[simp] theorem upToSync_answered : upToSync pt (.answered p' cmd rsp :: h) = upToSync pt h := by
  simp [upToSync]
@[simp] theorem upToSync_synced_same : upToSync pt (.synced pt :: h) = .synced pt :: sinceReset h := by
  simp [upToSync]
theorem upToSync_synced_other (hp : p' ≠ pt) : upToSync pt (.synced p' :: h) = upToSync pt h := by
  simp [upToSync, hp]

@[simp] theorem popsAtSync_nil : popsAtSync [] = 0 := rfl
@[simp] theorem popsAtSync_reset : popsAtSync (.reset :: h) = 0 := rfl
@[simp] theorem popsAtSync_answered : popsAtSync (.answered pt cmd rsp :: h) = popsAtSync h := by
  simp [popsAtSync]
/-- SyncP: `HV` becomes `H` (10_state.md R34). -/
@[simp] theorem popsAtSync_synced_p : popsAtSync (.synced .p :: h) = totalPops h := by
  simp [popsAtSync, totalPops, poppedBytes, List.filterMap_cons, returnedByte]
@[simp] theorem popsAtSync_synced_q : popsAtSync (.synced .q :: h) = popsAtSync h := by
  simp [popsAtSync, upToSync_synced_other]

@[simp] theorem pushesAtSync_nil : pushesAtSync [] = 0 := rfl
@[simp] theorem pushesAtSync_reset : pushesAtSync (.reset :: h) = 0 := rfl
@[simp] theorem pushesAtSync_answered : pushesAtSync (.answered pt cmd rsp :: h) = pushesAtSync h := by
  simp [pushesAtSync]
/-- SyncQ: `TV` becomes `T` (10_state.md R34). -/
@[simp] theorem pushesAtSync_synced_q : pushesAtSync (.synced .q :: h) = totalPushes h := by
  simp [pushesAtSync, totalPushes, pushedBytes, List.filterMap_cons, acceptedByte]
@[simp] theorem pushesAtSync_synced_p : pushesAtSync (.synced .p :: h) = pushesAtSync h := by
  simp [pushesAtSync, upToSync_synced_other]

/-- A command that is not PUSH, or not on P, accepts nothing. -/
theorem acceptedByte_of_decode {pt : Port} {cmd rsp : Word} (hd : ∀ b, decode cmd ≠ .ok (.push b)) :
    acceptedByte (.answered pt cmd rsp) = none := by
  cases pt
  · cases hc : decode cmd with
    | error e => simp [acceptedByte, hc]
    | ok i => cases i <;> simp_all [acceptedByte]
  · rfl

/-- A command that is not POP returns no byte. -/
theorem returnedByte_of_decode {pt : Port} {cmd rsp : Word} (hd : decode cmd ≠ .ok .pop) :
    returnedByte (.answered pt cmd rsp) = none := by
  cases pt
  · rfl
  · cases hc : decode cmd with
    | error e => simp [returnedByte, hc]
    | ok i => cases i <;> simp_all [returnedByte]

/-- Only OK accepts a byte. -/
theorem acceptedByte_of_status {pt : Port} {cmd : Word} {st : Status} {val : Byte} (hs : st ≠ .ok) :
    acceptedByte (.answered pt cmd (responseWord st val)) = none := by
  have : st.code ≠ Status.ok.code := fun e => hs (Status.code_injective e)
  cases pt
  · cases hc : decode cmd with
    | error e => simp [acceptedByte, hc]
    | ok i => cases i <;> simp [acceptedByte, hc, this]
  · rfl

/-- Only OK returns a byte. -/
theorem returnedByte_of_status {pt : Port} {cmd : Word} {st : Status} {val : Byte} (hs : st ≠ .ok) :
    returnedByte (.answered pt cmd (responseWord st val)) = none := by
  have : st.code ≠ Status.ok.code := fun e => hs (Status.code_injective e)
  cases pt
  · rfl
  · cases hc : decode cmd with
    | error e => simp [returnedByte, hc]
    | ok i => cases i <;> simp [returnedByte, hc, this]

theorem acceptedByte_push {cmd : Word} {b val : Byte} (hd : decode cmd = .ok (.push b)) :
    acceptedByte (.answered .p cmd (responseWord .ok val)) = some b := by
  simp [acceptedByte, hd]

theorem returnedByte_pop {cmd : Word} {val : Byte} (hd : decode cmd = .ok .pop) :
    returnedByte (.answered .q cmd (responseWord .ok val)) = some val := by
  simp [returnedByte, hd]

end Sys2Proof.Machine
end

