-- ==== Sys2Proof/Laws/Index.lean ====
section
/-! SUPPORT. Index arithmetic as arithmetic of natural numbers (00_scope.md R10). -/

namespace Sys2Proof.Machine

@[simp] theorem modC_natCast (c n : Nat) : modC c (n : Int) = n % c := by
  unfold modC
  rw [← Int.natCast_mod]
  rfl

@[simp] theorem modC_zero (c : Nat) : modC c 0 = 0 := by simp [modC]

theorem modC_natCast_add (c m n : Nat) : modC c ((m : Int) + (n : Int)) = (m + n) % c := by
  rw [← modC_natCast]; norm_cast

theorem inc_eq (c i : Nat) : inc c i = (i + 1) % c := by
  rw [inc, ← modC_natCast]; norm_cast

theorem modC_lt {c : Nat} (x : Int) (hc : 0 < c) : modC c x < c := by
  unfold modC
  have h1 := Int.emod_nonneg x (b := (c : Int)) (by omega)
  have h2 := Int.emod_lt_of_pos x (b := (c : Int)) (by omega)
  omega

theorem inc_lt {c : Nat} (i : Nat) (hc : 0 < c) : inc c i < c := modC_lt _ hc

theorem distC_lt {c : Nat} (a b : Nat) (hc : 0 < c) : distC c a b < c := modC_lt _ hc

/-- Advancing an index of a total is the index of the next total. -/
theorem inc_mod (c n : Nat) : inc c (n % c) = (n + 1) % c := by
  rw [inc_eq]; simp [Nat.add_mod]

/-- The distance of the indices of two totals that are less than `c` apart is their difference. -/
theorem distC_mod {c h t : Nat} (h1 : h ≤ t) (h2 : t < h + c) : distC c (t % c) (h % c) = t - h := by
  unfold distC modC
  have : (((t % c : Nat) : Int) - ((h % c : Nat) : Int)) % (c : Int) = ((t - h : Nat) : Int) := by
    rw [Int.natCast_mod, Int.natCast_mod, ← Int.sub_emod]
    have : (t : Int) - h = ((t - h : Nat) : Int) := by omega
    rw [this, ← Int.natCast_mod, Nat.mod_eq_of_lt (by omega)]
  rw [this]; rfl

/-- The indices of two totals at most `c - 1` apart are equal only if the totals are. -/
theorem mod_eq_iff {c h t : Nat} (h1 : h ≤ t) (h2 : t < h + c) : h % c = t % c ↔ h = t := by
  constructor
  · intro e
    have := distC_mod h1 h2
    rw [← e] at this
    simp [distC, modC] at this
    omega
  · rintro rfl; rfl

end Sys2Proof.Machine
end

