-- ==== Sys2Proof/Laws/Memory.lean ====
section
/-! SUPPORT. The laws of storage: every operation keeps the canonical form, a read after a write, and a write leaves
every other slot alone. -/

namespace Sys2Proof.Machine

theorem Memory.written_write (m : Memory) (i j : Nat) (v : Byte) (h : Memory.wf m) :
    Memory.written (Memory.write m i v) j = if i = j then some v else Memory.written m j := by
  induction m with
  | nil => simp [Memory.write, Memory.written]
  | cons c m ih =>
    obtain ⟨k, w⟩ := c
    obtain ⟨-, hm⟩ := List.pairwise_cons.mp h
    have := ih hm
    simp only [Memory.write]
    split_ifs with h1 h2 <;> simp only [Memory.written, this] <;> split_ifs <;> first | rfl | omega

/-- A read after a write gives the byte written. -/
theorem Memory.read_write_same (m : Memory) (i : Nat) (v : Byte) (h : Memory.wf m) :
    Memory.read (Memory.write m i v) i = v := by
  simp [Memory.read, Memory.written_write m i i v h]

/-- A write leaves every other slot alone. -/
theorem Memory.read_write_other (m : Memory) (i j : Nat) (v : Byte) (h : Memory.wf m) (hij : i ≠ j) :
    Memory.read (Memory.write m i v) j = Memory.read m j := by
  simp [Memory.read, Memory.written_write m i j v h, hij]

/-- The slots listed after a write are the slot written and those listed before. -/
theorem Memory.mem_write {m : Memory} {i : Nat} {v : Byte} {c : Host.Cell} (h : c ∈ Memory.write m i v) :
    c = (i, v) ∨ c ∈ m := by
  induction m with
  | nil => simpa [Memory.write] using h
  | cons d m ih =>
    simp only [Memory.write] at h
    split_ifs at h <;> simp only [List.mem_cons] at h ⊢ <;> tauto

/-- A write keeps the canonical form. -/
theorem Memory.write_wf {m : Memory} (i : Nat) (v : Byte) (h : Memory.wf m) : Memory.wf (Memory.write m i v) := by
  induction m with
  | nil => simp [Memory.write, Memory.wf]
  | cons d m ih =>
    obtain ⟨k, w⟩ := d
    obtain ⟨hk, hm⟩ := List.pairwise_cons.mp h
    simp only [Memory.write]
    split_ifs with h1 h2
    · refine List.pairwise_cons.mpr ⟨?_, h⟩
      intro a ha
      rcases List.mem_cons.mp ha with rfl | ha
      · exact h1
      · exact lt_trans h1 (hk a ha)
    · subst h2; exact h
    · refine List.pairwise_cons.mpr ⟨?_, ih hm⟩
      intro a ha
      obtain ⟨c, hc, rfl⟩ := List.mem_map.mp ha
      rcases Memory.mem_write hc with rfl | hc
      · show k < i
        omega
      · exact hk _ (List.mem_map_of_mem hc)

theorem Memory.nil_wf : Memory.wf [] := List.Pairwise.nil

end Sys2Proof.Machine
end

