-- ==== Sys2Proof/Laws/State.lean ====
section
/-! SUPPORT. One lemma for each field and each update of State, so that no proof unfolds one. -/

namespace Sys2Proof.Machine

/-! `respond` -/

section respond
variable (st : Status) (val : Byte) (s : State)

@[simp] theorem respond_cfg : (respond st val s).cfg = s.cfg := rfl
@[simp] theorem respond_mem : (respond st val s).mem = s.mem := rfl
@[simp] theorem respond_head : (respond st val s).head = s.head := rfl
@[simp] theorem respond_tail : (respond st val s).tail = s.tail := rfl
@[simp] theorem respond_hvLag : (respond st val s).hvLag = s.hvLag := rfl
@[simp] theorem respond_tvLag : (respond st val s).tvLag = s.tvLag := rfl
@[simp] theorem respond_faults : (respond st val s).faults = s.faults := rfl
@[simp] theorem respond_port : (respond st val s).port = s.port := rfl
@[simp] theorem respond_cmd : (respond st val s).cmd = s.cmd := rfl
@[simp] theorem respond_history : (respond st val s).history = .answered s.port s.cmd (responseWord st val) :: s.history := rfl
@[simp] theorem respond_issueP : (respond st val s).issueP = s.issueP := rfl
@[simp] theorem respond_issueQ : (respond st val s).issueQ = s.issueQ := rfl
@[simp] theorem respond_schedule : (respond st val s).schedule = s.schedule := rfl

end respond

/-! `raiseFault` -/

section raiseFault
variable (k : FaultKind) (s : State)

@[simp] theorem raiseFault_cfg : (raiseFault k s).cfg = s.cfg := rfl
@[simp] theorem raiseFault_mem : (raiseFault k s).mem = s.mem := rfl
@[simp] theorem raiseFault_head : (raiseFault k s).head = s.head := rfl
@[simp] theorem raiseFault_tail : (raiseFault k s).tail = s.tail := rfl
@[simp] theorem raiseFault_hvLag : (raiseFault k s).hvLag = s.hvLag := rfl
@[simp] theorem raiseFault_tvLag : (raiseFault k s).tvLag = s.tvLag := rfl
@[simp] theorem raiseFault_faults : (raiseFault k s).faults = s.faults ++ [{ kind := k, port := s.port, cmd := s.cmd }] := rfl
@[simp] theorem raiseFault_port : (raiseFault k s).port = s.port := rfl
@[simp] theorem raiseFault_cmd : (raiseFault k s).cmd = s.cmd := rfl
@[simp] theorem raiseFault_history : (raiseFault k s).history = .answered s.port s.cmd (responseWord k.status 0x00#8) :: s.history := rfl
@[simp] theorem raiseFault_issueP : (raiseFault k s).issueP = s.issueP := rfl
@[simp] theorem raiseFault_issueQ : (raiseFault k s).issueQ = s.issueQ := rfl
@[simp] theorem raiseFault_schedule : (raiseFault k s).schedule = s.schedule := rfl

end raiseFault

/-! `present` -/

section present
variable (pt : Port) (w : Word) (s : State)

@[simp] theorem present_cfg : (present pt w s).cfg = s.cfg := rfl
@[simp] theorem present_mem : (present pt w s).mem = s.mem := rfl
@[simp] theorem present_head : (present pt w s).head = s.head := rfl
@[simp] theorem present_tail : (present pt w s).tail = s.tail := rfl
@[simp] theorem present_hvLag : (present pt w s).hvLag = s.hvLag := rfl
@[simp] theorem present_tvLag : (present pt w s).tvLag = s.tvLag := rfl
@[simp] theorem present_faults : (present pt w s).faults = s.faults := rfl
@[simp] theorem present_port : (present pt w s).port = pt := rfl
@[simp] theorem present_cmd : (present pt w s).cmd = w := rfl
@[simp] theorem present_history : (present pt w s).history = s.history := rfl
@[simp] theorem present_issueP : (present pt w s).issueP = s.issueP := rfl
@[simp] theorem present_issueQ : (present pt w s).issueQ = s.issueQ := rfl
@[simp] theorem present_schedule : (present pt w s).schedule = s.schedule := rfl

end present

/-! `resetEvent` -/

section resetEvent
variable (s : State)

@[simp] theorem resetEvent_cfg : (resetEvent s).cfg = s.cfg := rfl
@[simp] theorem resetEvent_mem : (resetEvent s).mem = s.mem := rfl
@[simp] theorem resetEvent_head : (resetEvent s).head = 0 := rfl
@[simp] theorem resetEvent_tail : (resetEvent s).tail = 0 := rfl
@[simp] theorem resetEvent_hvLag : (resetEvent s).hvLag = 0 := rfl
@[simp] theorem resetEvent_tvLag : (resetEvent s).tvLag = 0 := rfl
@[simp] theorem resetEvent_faults : (resetEvent s).faults = s.faults := rfl
@[simp] theorem resetEvent_port : (resetEvent s).port = s.port := rfl
@[simp] theorem resetEvent_cmd : (resetEvent s).cmd = s.cmd := rfl
@[simp] theorem resetEvent_history : (resetEvent s).history = .reset :: s.history := rfl
@[simp] theorem resetEvent_issueP : (resetEvent s).issueP = s.issueP := rfl
@[simp] theorem resetEvent_issueQ : (resetEvent s).issueQ = s.issueQ := rfl
@[simp] theorem resetEvent_schedule : (resetEvent s).schedule = s.schedule := rfl

end resetEvent

/-! `State.boot` -/

section boot
variable (cfg : Config) (mem : Memory) (ip iq : List Word) (sch : List Agent)

@[simp] theorem boot_cfg : (State.boot cfg mem ip iq sch).cfg = cfg := rfl
@[simp] theorem boot_mem : (State.boot cfg mem ip iq sch).mem = mem := rfl
@[simp] theorem boot_head : (State.boot cfg mem ip iq sch).head = 0 := rfl
@[simp] theorem boot_tail : (State.boot cfg mem ip iq sch).tail = 0 := rfl
@[simp] theorem boot_hvLag : (State.boot cfg mem ip iq sch).hvLag = 0 := rfl
@[simp] theorem boot_tvLag : (State.boot cfg mem ip iq sch).tvLag = 0 := rfl
@[simp] theorem boot_faults : (State.boot cfg mem ip iq sch).faults = [] := rfl
@[simp] theorem boot_port : (State.boot cfg mem ip iq sch).port = .p := rfl
@[simp] theorem boot_cmd : (State.boot cfg mem ip iq sch).cmd = 0x0000#16 := rfl
@[simp] theorem boot_history : (State.boot cfg mem ip iq sch).history = [] := rfl
@[simp] theorem boot_issueP : (State.boot cfg mem ip iq sch).issueP = ip := rfl
@[simp] theorem boot_issueQ : (State.boot cfg mem ip iq sch).issueQ = iq := rfl
@[simp] theorem boot_schedule : (State.boot cfg mem ip iq sch).schedule = sch := rfl

end boot

/-! What an answer leaves as it was: the views, the derived conditions and the stored bytes. -/

section respond
variable (st : Status) (val : Byte) (s : State)

@[simp] theorem respond_hv : (respond st val s).hv = s.hv := rfl
@[simp] theorem respond_tv : (respond st val s).tv = s.tv := rfl
@[simp] theorem respond_count : (respond st val s).count = s.count := rfl
@[simp] theorem respond_producerCount : (respond st val s).producerCount = s.producerCount := rfl
@[simp] theorem respond_consumerCount : (respond st val s).consumerCount = s.consumerCount := rfl
@[simp] theorem respond_full : (respond st val s).full = s.full := rfl
@[simp] theorem respond_empty : (respond st val s).empty = s.empty := rfl
@[simp] theorem respond_seesFull : (respond st val s).seesFull = s.seesFull := rfl
@[simp] theorem respond_seesEmpty : (respond st val s).seesEmpty = s.seesEmpty := rfl
@[simp] theorem respond_queue : (respond st val s).queue = s.queue := rfl
@[simp] theorem respond_slot (i : Nat) : (respond st val s).slot i = s.slot i := rfl

end respond

section raiseFault
variable (k : FaultKind) (s : State)

@[simp] theorem raiseFault_hv : (raiseFault k s).hv = s.hv := rfl
@[simp] theorem raiseFault_tv : (raiseFault k s).tv = s.tv := rfl
@[simp] theorem raiseFault_count : (raiseFault k s).count = s.count := rfl
@[simp] theorem raiseFault_producerCount : (raiseFault k s).producerCount = s.producerCount := rfl
@[simp] theorem raiseFault_consumerCount : (raiseFault k s).consumerCount = s.consumerCount := rfl
@[simp] theorem raiseFault_full : (raiseFault k s).full = s.full := rfl
@[simp] theorem raiseFault_empty : (raiseFault k s).empty = s.empty := rfl
@[simp] theorem raiseFault_seesFull : (raiseFault k s).seesFull = s.seesFull := rfl
@[simp] theorem raiseFault_seesEmpty : (raiseFault k s).seesEmpty = s.seesEmpty := rfl
@[simp] theorem raiseFault_queue : (raiseFault k s).queue = s.queue := rfl
@[simp] theorem raiseFault_slot (i : Nat) : (raiseFault k s).slot i = s.slot i := rfl

end raiseFault

section present
variable (pt : Port) (w : Word) (s : State)

@[simp] theorem present_hv : (present pt w s).hv = s.hv := rfl
@[simp] theorem present_tv : (present pt w s).tv = s.tv := rfl
@[simp] theorem present_count : (present pt w s).count = s.count := rfl
@[simp] theorem present_producerCount : (present pt w s).producerCount = s.producerCount := rfl
@[simp] theorem present_consumerCount : (present pt w s).consumerCount = s.consumerCount := rfl
@[simp] theorem present_full : (present pt w s).full = s.full := rfl
@[simp] theorem present_empty : (present pt w s).empty = s.empty := rfl
@[simp] theorem present_seesFull : (present pt w s).seesFull = s.seesFull := rfl
@[simp] theorem present_seesEmpty : (present pt w s).seesEmpty = s.seesEmpty := rfl
@[simp] theorem present_queue : (present pt w s).queue = s.queue := rfl
@[simp] theorem present_slot (i : Nat) : (present pt w s).slot i = s.slot i := rfl

end present

end Sys2Proof.Machine
end

