-- ==== Sys2Proof/Laws/Exec.lean ====
section
/-! SUPPORT. What each shared operation, each meaning and each step can do, said once. -/

namespace Sys2Proof.Machine

/-- A legal configuration has at least two slots (00_scope.md R5). -/
theorem Config.two_le {c : Config} (h : c.wellFormed = true) : 2 ≤ c.slots := by
  simpa [Config.wellFormed] using h

theorem guarded_of_legal {s : State} {o : Host.Outcome State Fault Refusal} (h : s.cfg.wellFormed = true) :
    guarded s o = o := by simp [guarded, h]

theorem guarded_of_not_legal {s : State} {o : Host.Outcome State Fault Refusal} (h : s.cfg.wellFormed = false) :
    guarded s o = .refused .capacityBelowTwo := by simp [guarded, h]

/-- A guarded outcome is a next state only of a legal configuration. -/
theorem guarded_next {s t : State} {o : Host.Outcome State Fault Refusal} (h : guarded s o = .next t) :
    s.cfg.wellFormed = true ∧ o = .next t := by
  unfold guarded at h
  split at h
  · exact ⟨‹_›, h⟩
  · cases h

theorem readSlot_of_lt {s : State} {i : Nat} (h : i < s.cfg.slots) : readSlot s i = .ok (s.slot i) := by
  simp [readSlot, h]

theorem writeSlot_of_lt {s : State} {i : Nat} {v : Byte} (h : i < s.cfg.slots) :
    writeSlot s i v = .ok { s with mem := Memory.write s.mem i v } := by
  simp [writeSlot, h]

/-- The state an accepted PUSH leaves (40_producer_port.md R80). -/
def afterPush (b : Byte) (s : State) : State :=
  respond .ok 0x00#8 { s with mem := Memory.write s.mem s.tail b, tail := inc s.cfg.slots s.tail }

/-- The state a POP that returns a byte leaves (41_consumer_port.md R90). -/
def afterPop (s : State) : State :=
  respond .ok (s.slot s.head) { s with head := inc s.cfg.slots s.head }

/-- Everything a command can do when it answers a next state. -/
theorem exec_next {i : Instr} {s t : State} (h : exec i s = .next t) :
    s.cfg.wellFormed = true ∧
    ((s.port ≠ i.port ∧ t = raiseFault .errPort s) ∨
     (s.port = i.port ∧
      ((∃ b, i = .push b ∧ s.seesFull = true ∧ t = respond .overflow 0x00#8 s) ∨
       (∃ b, i = .push b ∧ s.seesFull = false ∧ s.tail < s.cfg.slots ∧ t = afterPush b s) ∨
       (i = .pop ∧ s.seesEmpty = true ∧ t = respond .empty 0x00#8 s) ∨
       (i = .pop ∧ s.seesEmpty = false ∧ s.head < s.cfg.slots ∧ t = afterPop s) ∨
       (i = .isempty ∧ t = respond .ok (if s.seesEmpty then 0x01#8 else 0x00#8) s)))) := by
  cases i with
  | push b =>
    obtain ⟨hl, h⟩ := guarded_next (show onPort .p (pushBody b) s = .next t from h)
    refine ⟨hl, ?_⟩
    split at h
    · rename_i hp
      refine .inr ⟨hp, ?_⟩
      unfold pushBody at h
      split at h
      · cases h; exact .inl ⟨b, rfl, ‹_›, rfl⟩
      · unfold writeSlot State.pushSlot at h
        split at h
        · cases h
        · rename_i hf _ _ hw
          split at hw
          · cases hw; cases h
            exact .inr (.inl ⟨b, rfl, by simpa using hf, ‹_›, rfl⟩)
          · cases hw
    · cases h; exact .inl ⟨‹_›, rfl⟩
  | pop =>
    obtain ⟨hl, h⟩ := guarded_next (show onPort .q popBody s = .next t from h)
    refine ⟨hl, ?_⟩
    split at h
    · rename_i hp
      refine .inr ⟨hp, ?_⟩
      unfold popBody at h
      split at h
      · cases h; exact .inr (.inr (.inl ⟨rfl, ‹_›, rfl⟩))
      · unfold readSlot State.popSlot at h
        split at h
        · cases h
        · rename_i hf _ _ hw
          split at hw
          · cases hw; cases h
            exact .inr (.inr (.inr (.inl ⟨rfl, by simpa using hf, ‹_›, rfl⟩)))
          · cases hw
    · cases h; exact .inl ⟨‹_›, rfl⟩
  | isempty =>
    obtain ⟨hl, h⟩ := guarded_next (show onPort .q isemptyBody s = .next t from h)
    refine ⟨hl, ?_⟩
    split at h
    · cases h; exact .inr ⟨‹_›, .inr (.inr (.inr (.inr ⟨rfl, rfl⟩)))⟩
    · cases h; exact .inl ⟨‹_›, rfl⟩

/-- A command on the wrong port (60_exceptions.md R113). -/
theorem exec_of_wrong_port {i : Instr} {s : State} (hl : s.cfg.wellFormed = true) (hp : s.port ≠ i.port) :
    exec i s = .next (raiseFault .errPort s) := by
  cases i <;> simp_all [exec, execPush, execPop, execIsempty, onPort, guarded, Instr.port]

theorem exec_push_of_full {b : Byte} {s : State} (hl : s.cfg.wellFormed = true) (hp : s.port = .p)
    (hf : s.seesFull = true) : exec (.push b) s = .next (respond .overflow 0x00#8 s) := by
  simp [exec, execPush, onPort, guarded, hl, hp, pushBody, hf]

theorem exec_push_of_room {b : Byte} {s : State} (hl : s.cfg.wellFormed = true) (hp : s.port = .p)
    (hf : s.seesFull = false) (ht : s.tail < s.cfg.slots) : exec (.push b) s = .next (afterPush b s) := by
  simp [exec, execPush, onPort, guarded, hl, hp, pushBody, hf, State.pushSlot, writeSlot_of_lt ht, afterPush]

theorem exec_pop_of_empty {s : State} (hl : s.cfg.wellFormed = true) (hp : s.port = .q)
    (he : s.seesEmpty = true) : exec .pop s = .next (respond .empty 0x00#8 s) := by
  simp [exec, execPop, onPort, guarded, hl, hp, popBody, he]

theorem exec_pop_of_byte {s : State} (hl : s.cfg.wellFormed = true) (hp : s.port = .q)
    (he : s.seesEmpty = false) (hh : s.head < s.cfg.slots) : exec .pop s = .next (afterPop s) := by
  simp [exec, execPop, onPort, guarded, hl, hp, popBody, he, State.popSlot, readSlot_of_lt hh, afterPop]

theorem exec_isempty_on_q {s : State} (hl : s.cfg.wellFormed = true) (hp : s.port = .q) :
    exec .isempty s = .next (respond .ok (if s.seesEmpty then 0x01#8 else 0x00#8) s) := by
  simp [exec, execIsempty, onPort, guarded, hl, hp, isemptyBody]

/-- A command word is a reserved word, or the word of a command. -/
theorem dispatch_of_ok {s : State} {i : Instr} (h : decode s.cmd = .ok i) : dispatch s = exec i s := by
  simp [dispatch, h]

theorem dispatch_of_reserved {s : State} {e : Reserved} (h : decode s.cmd = .error e) :
    dispatch s = .next (raiseFault .errReserved s) := by
  simp [dispatch, h]

/-- Everything an atomic step can do when it answers a next state. -/
theorem move_next {m : Move} {s t : State} (h : move m s = .next t) :
    (∃ pt w e, m = .command pt w ∧ decode w = .error e ∧ t = raiseFault .errReserved (present pt w s)) ∨
    (∃ pt w i, m = .command pt w ∧ decode w = .ok i ∧ exec i (present pt w s) = .next t) ∨
    (∃ pt, m = .sync pt ∧ t = syncView pt s) ∨
    (m = .reset ∧ t = resetEvent s) := by
  cases m with
  | command pt w =>
    change dispatch (present pt w s) = .next t at h
    unfold dispatch at h
    split at h
    · rename_i e hd
      cases h; exact .inl ⟨pt, w, e, rfl, hd, rfl⟩
    · rename_i i hd
      exact .inr (.inl ⟨pt, w, i, rfl, hd, h⟩)
  | sync pt => cases h; exact .inr (.inr (.inl ⟨pt, rfl, rfl⟩))
  | reset => cases h; exact .inr (.inr (.inr ⟨rfl, rfl⟩))

/-- Everything a turn can do when it answers a next state: nothing, or one atomic step; a command is the next word of
the agent's own list. -/
theorem turn_next {a : Agent} {s t : State} (h : turn a s = .next t) :
    (t = s ∧ ((a = .p ∧ s.issueP = []) ∨ (a = .q ∧ s.issueQ = []))) ∨
    (∃ w ws, a = .p ∧ s.issueP = w :: ws ∧ move (.command .p w) { s with issueP := ws } = .next t) ∨
    (∃ w ws, a = .q ∧ s.issueQ = w :: ws ∧ move (.command .q w) { s with issueQ := ws } = .next t) ∨
    (a = .syncP ∧ move (.sync .p) s = .next t) ∨ (a = .syncQ ∧ move (.sync .q) s = .next t) ∨
    (a = .rst ∧ move .reset s = .next t) := by
  cases a with
  | p =>
    cases hq : s.issueP with
    | nil => simp only [turn, hq] at h; cases h; simp_all
    | cons w ws => simp only [turn, hq] at h; exact .inr (.inl ⟨w, ws, rfl, rfl, h⟩)
  | q =>
    cases hq : s.issueQ with
    | nil => simp only [turn, hq] at h; cases h; simp_all
    | cons w ws => simp only [turn, hq] at h; exact .inr (.inr (.inl ⟨w, ws, rfl, rfl, h⟩))
  | syncP => exact .inr (.inr (.inr (.inl ⟨rfl, h⟩)))
  | syncQ => exact .inr (.inr (.inr (.inr (.inl ⟨rfl, h⟩))))
  | rst => exact .inr (.inr (.inr (.inr (.inr ⟨rfl, h⟩))))

/-- Everything a step can do when it answers a next state: hold the state at the end of the schedule, or take the turn
the schedule names. -/
theorem step_next {s t : State} (h : step s = .next t) :
    s.cfg.wellFormed = true ∧
    ((s.schedule = [] ∧ t = s) ∨
     (∃ a rest, s.schedule = a :: rest ∧ turn a { s with schedule := rest } = .next t)) := by
  obtain ⟨hl, h⟩ := guarded_next h
  refine ⟨hl, ?_⟩
  unfold nextTurn at h
  split at h
  · cases h; exact .inl ⟨‹_›, rfl⟩
  · exact .inr ⟨_, _, ‹_›, h⟩

end Sys2Proof.Machine
end

