-- ==== Sys2Proof/Laws/Invariant.lean ====
section
/-! SUPPORT. What the invariant says in natural numbers: the count, the estimates, the tests of full and empty, the
used slots and the queue, as functions of the totals of 10_state.md R34. And what a sync step can do. -/

namespace Sys2Proof.Machine

theorem State.Inv.two_le {s : State} (hi : s.Inv) : 2 ≤ s.cfg.slots := Config.two_le hi.1

/-- Both indices are slots. -/
theorem State.Inv.index_lt {s : State} (hi : s.Inv) : s.head < s.cfg.slots ∧ s.tail < s.cfg.slots := by
  have := hi.two_le
  obtain ⟨-, -, ⟨h1, h2, -, -⟩, -, -⟩ := hi
  exact ⟨h1 ▸ modC_lt _ (by omega), h2 ▸ modC_lt _ (by omega)⟩

theorem count_of_inv {s : State} (hi : s.Inv) : s.count = totalPushes s.history - totalPops s.history := by
  have := hi.two_le
  obtain ⟨-, -, ⟨h1, h2, h3, h4⟩, -, -⟩ := hi
  rw [State.count, h1, h2, modC_natCast, modC_natCast, distC_mod h3 (by omega)]

theorem estimates_of_coherent {s : State} (hc : s.cfg.view = .coherent) :
    s.producerCount = s.count ∧ s.consumerCount = s.count := by
  simp [State.producerCount, State.consumerCount, State.count, State.hv, State.tv, hc]

theorem estimates_of_lagged {s : State} (hi : s.Inv) (hc : s.cfg.view = .lagged) :
    s.producerCount = totalPushes s.history - popsAtSync s.history ∧
    s.consumerCount = pushesAtSync s.history - totalPops s.history := by
  have := hi.two_le
  obtain ⟨-, -, ⟨h1, h2, h3, h4⟩, hv, -⟩ := hi
  obtain ⟨v1, v2, v3, v4, v5, v6⟩ := hv hc
  simp only [State.producerCount, State.consumerCount, State.hv, State.tv, hc]
  rw [v1, v2, h1, h2]
  simp only [modC_natCast]
  constructor <;> rw [distC_mod] <;> omega

/-- `inc(tail) = hv` is `modC(tail - hv) = C - 1` (10_state.md R27). -/
theorem inc_eq_iff {c h t : Nat} (hc : 2 ≤ c) (h1 : h ≤ t) (h2 : t < h + c) :
    inc c (t % c) = h % c ↔ distC c (t % c) (h % c) = c - 1 := by
  rw [distC_mod h1 h2, inc_mod]
  constructor
  · intro e
    by_contra hne
    have := (mod_eq_iff (c := c) (h := h) (t := t + 1) (by omega) (by omega)).1 e.symm
    omega
  · intro e
    have : t + 1 = h + c := by omega
    rw [this]; simp

/-- The producer's test in terms of its estimate (R27). -/
theorem seesFull_of_inv {s : State} (hi : s.Inv) : s.seesFull = true ↔ s.producerCount = s.cfg.slots - 1 := by
  have h2le := hi.two_le
  obtain ⟨-, -, ⟨h1, h2, h3, h4⟩, hv, -⟩ := hi
  cases hc : s.cfg.view with
  | coherent =>
    simp only [State.seesFull, State.producerCount, State.hv, hc, decide_eq_true_eq]
    rw [h1, h2]; simp only [modC_natCast]; exact inc_eq_iff h2le h3 (by omega)
  | lagged =>
    obtain ⟨v1, v2, v3, v4, v5, v6⟩ := hv hc
    simp only [State.seesFull, State.producerCount, State.hv, hc, decide_eq_true_eq]
    rw [v1, h2]; simp only [modC_natCast]; exact inc_eq_iff h2le (by omega) (by omega)

/-- The consumer's test in terms of its estimate (R28). -/
theorem seesEmpty_of_inv {s : State} (hi : s.Inv) : s.seesEmpty = true ↔ s.consumerCount = 0 := by
  have h2le := hi.two_le
  obtain ⟨-, -, ⟨h1, h2, h3, h4⟩, hv, -⟩ := hi
  cases hc : s.cfg.view with
  | coherent =>
    simp only [State.seesEmpty, State.consumerCount, State.tv, hc, decide_eq_true_eq]
    rw [h1, h2]; simp only [modC_natCast]
    rw [distC_mod h3 (by omega), mod_eq_iff h3 (by omega)]; omega
  | lagged =>
    obtain ⟨v1, v2, v3, v4, v5, v6⟩ := hv hc
    simp only [State.seesEmpty, State.consumerCount, State.tv, hc, decide_eq_true_eq]
    rw [v2, h1]; simp only [modC_natCast]
    rw [distC_mod (by omega) (by omega), mod_eq_iff (by omega) (by omega)]; omega

theorem usedSlots_of_inv {s : State} (hi : s.Inv) :
    s.usedSlots = (List.range s.count).map fun k => (totalPops s.history + k) % s.cfg.slots := by
  obtain ⟨-, -, ⟨h1, -, -, -⟩, -, -⟩ := hi
  apply List.map_congr_left
  intro k _
  rw [modC_natCast_add, h1, modC_natCast, Nat.mod_add_mod]

theorem queue_of_inv {s : State} (hi : s.Inv) :
    s.queue = (List.range s.count).map fun k => s.slot ((totalPops s.history + k) % s.cfg.slots) := by
  rw [State.queue, usedSlots_of_inv hi, List.map_map]; rfl

@[simp] theorem queue_length (s : State) : s.queue.length = s.count := by simp [State.queue, State.usedSlots]

/-- An empty buffer holds no bytes, whatever the configuration. -/
theorem queue_of_head_eq_tail {s : State} (h : s.head = s.tail) : s.queue = [] := by
  have : s.count = 0 := by simp [State.count, distC, h]
  exact List.eq_nil_of_length_eq_zero (by rw [queue_length, this])

/-- A sync step changes nothing, or copies one index to its view (20_memory.md R51). -/
theorem syncView_cases (pt : Port) (s : State) :
    syncView pt s = s ∨
    (s.cfg.view = .lagged ∧ pt = .p ∧ s.hvLag ≠ s.head ∧
      syncView pt s = { s with hvLag := s.head, history := .synced .p :: s.history }) ∨
    (s.cfg.view = .lagged ∧ pt = .q ∧ s.tvLag ≠ s.tail ∧
      syncView pt s = { s with tvLag := s.tail, history := .synced .q :: s.history }) := by
  unfold syncView
  cases he : syncEnabled pt s
  · exact .inl rfl
  · right
    cases hc : s.cfg.view <;> cases pt <;> simp [syncEnabled, hc] at he <;> simp [he]

/-- Going on from the first of several steps. -/
theorem moves_cons {m : Move} {ms : List Move} {s t : State} (h : move m s = .next t) :
    moves (m :: ms) s = moves ms t := by
  simp [moves, h]

end Sys2Proof.Machine
end

