-- ==== Sys2Proof/Laws/PerInstr.lean ====
section
/-! SUPPORT. Per-command facts about commands as syntax: the fields of a command's word (30_encoding.md R61 to
R63). -/

namespace Sys2Proof.Laws.CommandFields

/-- A command is legal, and its word holds its OP in bits 15:8 and its ARG in bits 7:0. -/
def Statement (i : Instr) : Prop :=
  i.wellFormed = true ∧ highByte (encode i) = i.op ∧ lowByte (encode i) = i.arg

theorem push (data : Byte) : Statement (.push data) := by simp [Statement, Instr.wellFormed, encode]

theorem pop : Statement .pop := by simp [Statement, Instr.wellFormed, encode]

theorem isempty : Statement .isempty := by simp [Statement, Instr.wellFormed, encode]

end Sys2Proof.Laws.CommandFields
end

