-- ==== Sys2Proof/Laws/Run.lean ====
section
/-! SUPPORT. One step of a run through Host/Core.lean. -/

namespace Sys2Proof.Machine

theorem core_run_zero (s : State) : core.run 0 s = .next s := rfl

/-- A run of one step more goes on from what the first step answers. -/
theorem core_run_next {n : Nat} {s t : State} (h : step s = .next t) : core.run (n + 1) s = core.run n t := by
  change core.step s = _ at h
  show Host.Core.run core (Nat.succ n) s = _
  simp only [Host.Core.run, h]

end Sys2Proof.Machine
end

