-- ==== Sys2Proof/Tests/Slice0.lean ====
section
/-! SUPPORT. The model's own tests: well-formedness, decoding by words written out from 30_encoding.md, one step of each
command with results from 95_test_vectors.md, and for each statement with hypotheses a state that meets them. -/

namespace Sys2Proof.Machine

/-! ### Helpers -/

/-- A coherent instance with `C = 4`, the given indices and written slots, and a transaction on a port. -/
def fifo (pt : Port) (w : Word) (head tail : Nat) (mem : Memory) : State :=
  { State.boot { slots := 4 } mem [] [] [] with head := head, tail := tail, port := pt, cmd := w }

/-- The state a list of steps leaves; the state itself if they stop. -/
def after (ms : List Move) (s : State) : State :=
  match moves ms s with
  | .next t => t
  | _ => s

/-- Commands that push bytes. -/
def pushes (bs : List Byte) : List Move := bs.map fun b => .command .p (encode (.push b))

/-- An instance of a view model with `C = 4` after some steps from its initial state. -/
def built (view : ViewModel) (ms : List Move) : State := after ms (State.boot { slots := 4, view := view } [] [] [] [])

/-- One field of the next state of an outcome. -/
def field {α : Type} (o : Host.Outcome State Fault Refusal) (f : State → α) : Option α :=
  match o with
  | .next t => some (f t)
  | _ => none

/-! ### Well-formedness: each check refuses an ill-formed term -/

theorem test_one_slot_refused : Config.wellFormed { slots := 1 } = false := by decide
theorem test_two_slots_legal : Config.wellFormed { slots := 2 } = true := by decide
theorem test_three_slots_legal : Config.wellFormed { slots := 3 } = true := by decide
theorem test_every_command_legal : Instr.wellFormed (.push 0xFF#8) = true := by decide
theorem test_operand_256_refused : AsmStmt.wellFormed (.push 256) = false := by decide
theorem test_raw_word_65536_refused : AsmStmt.wellFormed (.word 65536) = false := by decide
theorem test_text_code_256_refused : AsmStmt.wellFormed (.pushText [0x24, 256]) = false := by decide

/-! ### Decoding: bits written out from 30_encoding.md R61 to R63 -/

theorem test_decode_push_bits : decodeTableWord 16 0b0000000110100101 = some (.push 0xA5#8) := by decide
theorem test_decode_pop_bits : decodeTableWord 16 0b0000001000000000 = some .pop := by decide
theorem test_decode_isempty_bits : decodeTableWord 16 0b0000001100000000 = some .isempty := by decide
theorem test_decode_pop_arg_refused : decode 0b0000001010000000#16 = .error .nonzeroArg := by decide
theorem test_decode_op_4_refused : decode 0b0000010000000000#16 = .error .unusedOp := by decide

/-! ### Placing a command: the first step after reset runs it -/

theorem test_push_first_after_reset :
    field (step (State.reset.withFetchWord 16 0x0141)) (fun t => (t.lastResponse, t.tail, t.queue)) =
      some (some 0x0000#16, 1, [0x41#8]) := by decide
theorem test_pop_first_after_reset :
    field (step (State.reset.withFetchWord 16 0x0200)) (fun t => (t.lastResponse, t.head)) =
      some (some 0x0100#16, 0) := by decide
theorem test_isempty_first_after_reset :
    field (step (State.reset.withFetchWord 16 0x0300)) State.lastResponse = some (some 0x0001#16) := by decide
theorem test_reset_run_of_no_steps : core.run 0 State.reset = .next State.reset := core_run_zero _

/-! ### The commands, from 95_test_vectors.md -/

/-- V-P4: the tail wraps from 3 to 0. -/
theorem test_push_wraps :
    field (exec (.push 0x44#8) (fifo .p 0x0144#16 1 3 [(0, 0x41#8), (1, 0x42#8), (2, 0x43#8)]))
      (fun t => (t.lastResponse, t.head, t.tail, t.queue)) =
    some (some 0x0000#16, 1, 0, [0x42#8, 0x43#8, 0x44#8]) := by decide
/-- V-P5: full across the wrap, drop-newest. -/
theorem test_push_full_drops :
    field (exec (.push 0x45#8) (fifo .p 0x0145#16 1 0 [(1, 0x42#8), (2, 0x43#8), (3, 0x44#8)]))
      (fun t => (t.lastResponse, t.tail, t.queue)) =
    some (some 0x0200#16, 0, [0x42#8, 0x43#8, 0x44#8]) := by decide
/-- V-Q4: the head wraps from 3 to 0. -/
theorem test_pop_wraps :
    field (exec .pop (fifo .q 0x0200#16 3 1 [(0, 0x45#8), (3, 0x44#8)])) (fun t => (t.lastResponse, t.head, t.queue)) =
    some (some 0x0044#16, 0, [0x45#8]) := by decide
/-- V-Q5 and V-Q1: a stored 0x00 is not EMPTY. -/
theorem test_pop_zero_is_not_empty :
    field (exec .pop (fifo .q 0x0200#16 0 1 [(0, 0x00#8)])) State.lastResponse = some (some 0x0000#16) ∧
    field (exec .pop (fifo .q 0x0200#16 0 0 [])) State.lastResponse = some (some 0x0100#16) := by decide
/-- V-E3 and V-E4: a full buffer is not empty; empty away from slot 0. -/
theorem test_isempty_full_and_empty :
    field (exec .isempty (fifo .q 0x0300#16 0 3 [(0, 0x41#8), (1, 0x42#8), (2, 0x43#8)])) State.lastResponse =
      some (some 0x0000#16) ∧
    field (exec .isempty (fifo .q 0x0300#16 2 2 [])) State.lastResponse = some (some 0x0001#16) := by decide

/-! ### Faults, views and reset, from 95_test_vectors.md -/

/-- V-F6: reserved beats wrong port. -/
theorem test_reserved_beats_wrong_port :
    field (move (.command .p 0x0201#16) (fifo .p 0x0000#16 0 0 [])) (fun t => (t.lastResponse, t.faults)) =
    some (some 0xE000#16, [{ kind := .errReserved, port := .p, cmd := 0x0201#16 }]) := by decide
/-- V-F7: PUSH on Q stores nothing. -/
theorem test_push_on_q_stores_nothing :
    field (move (.command .q 0x0141#16) (fifo .p 0x0000#16 0 0 [])) (fun t => (t.lastResponse, t.faults, t.queue)) =
    some (some 0xE100#16, [{ kind := .errPort, port := .q, cmd := 0x0141#16 }], []) := by decide
/-- V-L1 step 6: under lagged, OVERFLOW with room, because `hv` is stale. -/
theorem test_lagged_push_sees_stale_head :
    field (exec (.push 0x44#8)
      { fifo .p 0x0144#16 1 3 [(0, 0x41#8), (1, 0x42#8), (2, 0x43#8)] with
        cfg := { slots := 4, view := .lagged }, hvLag := 0, tvLag := 3 }) (fun t => (t.lastResponse, t.count)) =
    some (some 0x0200#16, 2) := by decide
/-- V-L2 step 2: under lagged, EMPTY with a byte stored, because `tv` is stale. -/
theorem test_lagged_pop_sees_stale_tail :
    field (exec .pop { fifo .q 0x0200#16 0 1 [(0, 0x41#8)] with cfg := { slots := 4, view := .lagged } })
      (fun t => (t.lastResponse, t.count)) = some (some 0x0100#16, 1) := by decide
/-- V-R3: reset empties the buffer and keeps the fault log. -/
theorem test_reset_keeps_faults :
    field (move .reset { fifo .p 0x0000#16 0 1 [(0, 0x41#8)] with
        faults := [{ kind := .errPort, port := .q, cmd := 0x0141#16 }] })
      (fun t => (t.head, t.tail, t.queue, t.faults)) =
    some (0, 0, [], [{ kind := .errPort, port := .q, cmd := 0x0141#16 }]) := by decide

/-! ### The notations -/

theorem test_character_literal_of_hex_escape :
    assembleText ['p', 'u', 's', 'h', ' ', '\'', '\\', 'x', '4', '1', '\''] = .ok [(.p, 0x0141#16)] := by decide
theorem test_unprefixed_reserved_word_refused :
    assembleText ['.', 'w', 'o', 'r', 'd', ' ', '0', 'x', '0', '2', '0', '1'] = .error .noPort := by decide
/-- `repeat 3 { break }` issues nothing and ends. -/
theorem test_script_break_ends_repeat :
    runScript 9 (.seq (.times 3 .leave) (.assign 0 (.lit 5))) [] State.reset = .ok (false, [(0, .int 5)], State.reset) := by
  rfl

/-! ### Witnesses: for each statement with hypotheses, a state and operands that meet them -/

theorem witness_EncodedCommandsDecodeBack : (Instr.push 0x00#8).wellFormed = true ∧ (Instr.push 0xFF#8).wellFormed = true := by
  decide
theorem witness_DecodedWordsHaveOneEncoding : decode 0x01FF#16 = .ok (.push 0xFF#8) ∧ isReserved 0x0201#16 = true := by
  decide
theorem witness_DecoderFollowsMatchAndMask :
    highByte 0x01FF#16 = 0x01#8 ∧ (highByte 0x0200#16 = 0x02#8 ∧ lowByte 0x0200#16 = 0x00#8) ∧
    (highByte 0x0300#16 = 0x03#8 ∧ lowByte 0x0300#16 = 0x00#8) := by decide

/-- One command for each port, P's turn first. -/
def twoTurns : State := State.boot { slots := 4 } [] [0x0141#16] [0x0200#16] [.p, .q]

theorem witness_StepRunsDecodedCommand :
    (twoTurns.cfg.wellFormed = true ∧ decode 0x0141#16 = .ok (.push 0x41#8) ∧ twoTurns.schedule = .p :: [.q] ∧
      twoTurns.issueP = 0x0141#16 :: []) ∧
    decode 0x0200#16 = .ok .pop ∧ ({ twoTurns with schedule := [.q] } : State).schedule = .q :: [] ∧
      twoTurns.issueQ = 0x0200#16 :: [] := by decide
theorem witness_PlacedWordRunsNext : State.reset.cfg.wellFormed = true := by decide
theorem witness_ReservedWordAnswersErrReserved :
    (highByte 0x00FF#16 ≠ 0x01#8 ∧ highByte 0x00FF#16 ≠ 0x02#8 ∧ highByte 0x00FF#16 ≠ 0x03#8) ∧
    (highByte 0x0400#16 ≠ 0x01#8 ∧ highByte 0x0400#16 ≠ 0x02#8 ∧ highByte 0x0400#16 ≠ 0x03#8) ∧
    (highByte 0x0201#16 = 0x02#8 ∧ lowByte 0x0201#16 ≠ 0x00#8) ∧
    (highByte 0x03FF#16 = 0x03#8 ∧ lowByte 0x03FF#16 ≠ 0x00#8) := by decide
theorem witness_WrongPortAnswersErrPort :
    (fifo .q 0x0141#16 0 0 []).cfg.wellFormed = true ∧ (fifo .q 0x0141#16 0 0 []).port = .q ∧
    (fifo .p 0x0200#16 0 0 []).port = .p := by decide
theorem witness_EveryCommandIsAnsweredAtOnce :
    (fifo .p 0x0000#16 3 0 []).cfg.wellFormed = true ∧ (fifo .p 0x0000#16 3 0 []).head < 4 ∧
    (fifo .p 0x0000#16 3 0 []).tail < 4 := by decide

/-- A full buffer, its bytes pushed from the initial state. -/
def fullBuffer : State := built .coherent (pushes [0x41#8, 0x42#8, 0x43#8])
/-- A buffer with one byte. -/
def oneByte : State := built .coherent (pushes [0x41#8])
/-- The initial state of a coherent build. -/
def emptyBuffer : State := built .coherent []
/-- A lagged build with one byte pushed and neither view synced: the consumer's view is stale. -/
def staleTail : State := built .lagged (pushes [0x41#8])
/-- V-L1 after step 5: two bytes stored and the producer's view stale. -/
def staleHead : State := built .lagged (pushes [0x41#8, 0x42#8, 0x43#8] ++ [.sync .q, .command .q 0x0200#16])

theorem witness_inv_full : fullBuffer.Inv ∧ fullBuffer.full = true ∧ fullBuffer.cfg.view = .coherent ∧ fullBuffer.port = .p := by
  decide
theorem witness_inv_one : oneByte.Inv ∧ oneByte.seesEmpty = false ∧ oneByte.seesFull = false ∧ oneByte.port = .p := by
  decide
theorem witness_inv_empty : emptyBuffer.Inv ∧ emptyBuffer.empty = true ∧ emptyBuffer.cfg.view = .coherent := by decide
theorem witness_inv_stale_tail : staleTail.Inv ∧ staleTail.cfg.view = .lagged ∧ staleTail.seesEmpty = true ∧ staleTail.count = 1 := by
  decide
theorem witness_inv_stale_head : staleHead.Inv ∧ staleHead.cfg.view = .lagged ∧ staleHead.seesFull = true ∧ staleHead.count = 2 := by
  decide

/-- One command of each outcome: OK, EMPTY, OVERFLOW, ERR_RESERVED and ERR_PORT. -/
theorem witness_StatusIsProducedByItsCommand :
    (∃ t, move (.command .q 0x0200#16) oneByte = .next t) ∧ (∃ t, move (.command .q 0x0200#16) emptyBuffer = .next t) ∧
    (∃ t, move (.command .p 0x0144#16) fullBuffer = .next t) ∧ (∃ t, move (.command .p 0x0000#16) emptyBuffer = .next t) ∧
    (∃ t, move (.command .p 0x0200#16) emptyBuffer = .next t) := ⟨⟨_, rfl⟩, ⟨_, rfl⟩, ⟨_, rfl⟩, ⟨_, rfl⟩, ⟨_, rfl⟩⟩
theorem witness_ValueByteIsAsTheRuleSays :
    (∃ t, move (.command .q 0x0300#16) oneByte = .next t) ∧ (∃ t, move (.command .q 0x0300#16) emptyBuffer = .next t) :=
  ⟨⟨_, rfl⟩, ⟨_, rfl⟩⟩

theorem witness_PushStoresOrDrops :
    (fullBuffer.cfg.wellFormed = true ∧ Memory.wf fullBuffer.mem ∧ fullBuffer.port = .p ∧
      inc fullBuffer.cfg.slots fullBuffer.tail = fullBuffer.hv) ∧
    (oneByte.cfg.wellFormed = true ∧ Memory.wf oneByte.mem ∧ oneByte.port = .p ∧
      inc oneByte.cfg.slots oneByte.tail ≠ oneByte.hv ∧ oneByte.tail < oneByte.cfg.slots) ∧
    (inc 4 (fifo .p 0x0144#16 1 3 []).tail ≠ (fifo .p 0x0144#16 1 3 []).hv ∧ (fifo .p 0x0144#16 1 3 []).tail < 4) := by decide
theorem witness_PopReturnsOldestOrEmpty :
    ((fifo .q 0x0200#16 2 2 []).cfg.wellFormed = true ∧ (fifo .q 0x0200#16 2 2 []).port = .q ∧
      (fifo .q 0x0200#16 2 2 []).head = (fifo .q 0x0200#16 2 2 []).tv) ∧
    (fifo .q 0x0200#16 3 1 []).head ≠ (fifo .q 0x0200#16 3 1 []).tv ∧ (fifo .q 0x0200#16 3 1 []).head < 4 := by decide
theorem witness_IsemptyReportsWithoutChange :
    (fifo .q 0x0300#16 2 2 []).cfg.wellFormed = true ∧ (fifo .q 0x0300#16 2 2 []).port = .q := by decide
theorem witness_PushFrame :
    Memory.wf oneByte.mem ∧ (∃ t, exec (.push 0x42#8) oneByte = .next t ∧ t.lastResponse = some 0x0000#16) ∧
    (∃ t, exec (.push 0x42#8) fullBuffer = .next t ∧ t.lastResponse ≠ some 0x0000#16) ∧
    ∃ t, exec (.push 0x42#8) (fifo .q 0x0142#16 0 0 []) = .next t ∧ t.lastResponse ≠ some 0x0000#16 :=
  ⟨by decide, ⟨_, rfl, by decide⟩, ⟨_, rfl, by decide⟩, ⟨_, rfl, by decide⟩⟩
theorem witness_ConsumerFrame :
    (∃ t, exec .pop (fifo .q 0x0200#16 0 1 [(0, 0x41#8)]) = .next t) ∧ (∃ t, exec .isempty (fifo .q 0x0300#16 0 0 []) = .next t) :=
  ⟨⟨_, rfl⟩, ⟨_, rfl⟩⟩
theorem witness_PushNeverLosesAcceptedBytes :
    (oneByte.Inv ∧ ∃ t, exec (.push 0x42#8) oneByte = .next t) ∧
    (fullBuffer.Inv ∧ ∃ t, exec (.push 0x44#8) fullBuffer = .next t ∧ t.lastResponse = some 0x0200#16) :=
  ⟨⟨by decide, _, rfl⟩, by decide, _, rfl, by decide⟩
theorem witness_PopConsumesAndIsemptyRepeats :
    (present .q 0x0200#16 oneByte).Inv ∧ (present .q 0x0200#16 oneByte).port = .q ∧
    (present .q 0x0200#16 oneByte).seesEmpty = false ∧
    (∃ t, exec .pop (present .q 0x0200#16 oneByte) = .next t) ∧
    (present .q 0x0300#16 emptyBuffer).Inv ∧ (present .q 0x0300#16 emptyBuffer).count = 0 :=
  ⟨by decide, rfl, by decide, ⟨_, rfl⟩, by decide, by decide⟩
theorem witness_CommandsStopOnlyOutsideTheSpec :
    exec .pop (fifo .q 0x0200#16 7 1 []) = .fault (.noSuchSlot 7) ∧
    exec (.push 0x41#8) (fifo .p 0x0141#16 0 9 []) = .fault (.noSuchSlot 9) ∧
    exec .isempty (State.boot { slots := 1 } [] [] [] []) = .refused .capacityBelowTwo := ⟨rfl, rfl, rfl⟩
theorem witness_SmallCapacityIsRefused : (State.boot { slots := 1 } [] [] [] []).cfg.slots < 2 := by decide
theorem witness_IndexArithmeticIsModuloCapacity : 0 < 1 ∧ 0 < 4 := by decide
theorem witness_IndexWidthIsLeast : 2 ≤ 2 ∧ 2 ≤ 3 ∧ indexWidth 2 = 1 ∧ indexWidth 3 = 2 ∧ indexWidth 4 = 2 ∧ indexWidth 5 = 3 := by
  decide
theorem witness_OccupancyFollowsFromTotals : fullBuffer.Inv ∧ oneByte.Inv ∧ emptyBuffer.Inv ∧ staleHead.Inv :=
  ⟨by decide, by decide, by decide, by decide⟩
theorem witness_PushIsDroppedExactlyWhenSeenFull : fullBuffer.Inv ∧ fullBuffer.port = .p ∧ staleHead.Inv ∧
    (present .p 0x0144#16 staleHead).port = .p := by decide
theorem witness_ResetEventEstablishesInvariant :
    (fifo .p 0x0000#16 7 9 [(0, 0x41#8)]).cfg.wellFormed = true ∧ (fifo .p 0x0000#16 7 9 [(0, 0x41#8)]).StorageInv ∧
    ∃ t, move .reset (fifo .p 0x0000#16 7 9 [(0, 0x41#8)]) = .next t := ⟨by decide, by decide, _, rfl⟩
theorem witness_InitialStateMeetsInvariant :
    Config.wellFormed { slots := 2, view := .lagged } = true ∧
    (State.boot { slots := 2, view := .lagged } [(0, 0x55#8), (1, 0xAA#8)] [] [] []).StorageInv := by decide
theorem witness_StepKeepsInvariant :
    twoTurns.Inv ∧ (∃ t, step twoTurns = .next t) ∧
    ({ fullBuffer with schedule := [.rst] } : State).Inv ∧ (∃ t, step { fullBuffer with schedule := [.rst] } = .next t) ∧
    ({ staleTail with schedule := [.syncQ] } : State).Inv ∧ ∃ t, step { staleTail with schedule := [.syncQ] } = .next t :=
  ⟨by decide, ⟨_, rfl⟩, by decide, ⟨_, rfl⟩, by decide, _, rfl⟩
theorem witness_StepAlwaysCompletes : twoTurns.Inv ∧ fullBuffer.Inv ∧ staleTail.Inv := ⟨by decide, by decide, by decide⟩
theorem witness_FifoLawOnEveryRun :
    twoTurns.cfg.wellFormed = true ∧ twoTurns.StorageInv ∧
    (∃ t, move (.command .p 0x0144#16) fullBuffer = .next t ∧ t.lastResponse = some 0x0200#16) ∧
    ∃ t, move (.command .q 0x0200#16) twoTurns = .next t ∧ t.lastResponse = some 0x0100#16 :=
  ⟨by decide, by decide, ⟨_, rfl, by decide⟩, _, rfl, by decide⟩
theorem witness_EachIndexHasOneWriter :
    (∃ t, move (.command .p 0x0142#16) oneByte = .next t ∧ t.tail ≠ oneByte.tail) ∧
    (∃ t, move (.command .q 0x0200#16) oneByte = .next t ∧ t.head ≠ oneByte.head) ∧
    ∃ t, move .reset oneByte = .next t ∧ t.tail ≠ oneByte.tail := ⟨⟨_, rfl, by decide⟩, ⟨_, rfl, by decide⟩, _, rfl, by decide⟩
theorem witness_StorageHasOneWriter :
    Memory.wf [(1, 0x00#8)] ∧ ∃ t, move (.command .p 0x0142#16) (fifo .p 0x0000#16 1 1 [(1, 0x00#8)]) = .next t ∧
      t.slot 1 ≠ (fifo .p 0x0000#16 1 1 [(1, 0x00#8)]).slot 1 := ⟨by decide, _, rfl, by decide⟩
theorem witness_IssueOrderIsKept :
    (∃ t, step twoTurns = .next t ∧ t.issueP ≠ twoTurns.issueP) ∧
    ∃ t, step { twoTurns with schedule := [.q] } = .next t ∧ t.issueQ ≠ twoTurns.issueQ :=
  ⟨⟨_, rfl, by decide⟩, _, rfl, by decide⟩
theorem witness_FaultLogOnlyGrows :
    (∃ t, step twoTurns = .next t) ∧
    ∃ t, step { twoTurns with issueP := [0x0201#16] } = .next t ∧ t.faults ≠ twoTurns.faults :=
  ⟨⟨_, rfl⟩, _, rfl, by decide⟩
theorem witness_FaultsChangeNoLaterAnswer : ∃ t, step twoTurns = .next t ∧ t.faults = twoTurns.faults ++ [] :=
  ⟨_, rfl, by decide⟩
theorem witness_EndedRunsAreSettled :
    ({ staleTail with schedule := [.syncQ] } : State).ended = true ∧ ∃ t, step { staleTail with schedule := [.syncQ] } = .next t :=
  ⟨by decide, _, rfl⟩
theorem witness_BothOrdersOfSimultaneousCommands :
    fullBuffer.Inv ∧ fullBuffer.cfg.view = .coherent ∧ fullBuffer.full = true ∧
    emptyBuffer.Inv ∧ emptyBuffer.cfg.view = .coherent ∧ emptyBuffer.empty = true :=
  ⟨by decide, by decide, by decide, by decide, by decide, by decide⟩
theorem witness_NonEmptyAnswerIsStable :
    oneByte.Inv ∧ oneByte.seesEmpty = false ∧ ∃ t, moves [.command .p 0x0142#16, .sync .p, .sync .q] oneByte = .next t :=
  ⟨by decide, by decide, _, rfl⟩

/-- One byte stored in slot 2, after two pushes and pops: it looks like `oneByte`, in another place. -/
def oneByteElsewhere : State :=
  built .coherent (pushes [0x11#8, 0x22#8] ++ [.command .q 0x0200#16, .command .q 0x0200#16] ++ pushes [0x41#8])

theorem witness_FreeSlotsAreUnobservable :
    oneByte.Inv ∧ oneByteElsewhere.Inv ∧ oneByte.head ≠ oneByteElsewhere.head ∧ LooksLike oneByte oneByteElsewhere ∧
    (∃ t, move (.command .q 0x0200#16) oneByte = .next t) ∧ ∃ t, move (.command .q 0x0200#16) oneByteElsewhere = .next t :=
  ⟨by decide, by decide, by decide, ⟨by decide, by decide, by decide, by decide⟩, ⟨_, rfl⟩, _, rfl⟩
theorem witness_ViewsChangeOnlyBySyncAndReset :
    (∃ t, move (.sync .p) staleHead = .next t ∧ t.hv ≠ staleHead.hv) ∧
    (∃ t, move (.sync .q) staleTail = .next t ∧ t.tv ≠ staleTail.tv) ∧ staleTail.cfg.view = .lagged ∧
    ∃ t, move (.sync .p) oneByte = .next t ∧ oneByte.cfg.view = .coherent :=
  ⟨⟨_, rfl, by decide⟩, ⟨_, rfl, by decide⟩, by decide, _, rfl, by decide⟩
theorem witness_SyncStepsCopyTheIndices :
    staleHead.cfg.view = .lagged ∧ staleHead.hv ≠ staleHead.head ∧ staleHead.tv = staleHead.tail ∧
    staleTail.cfg.view = .lagged ∧ staleTail.tv ≠ staleTail.tail ∧ staleTail.hv = staleTail.head ∧
    oneByte.cfg.view = .coherent := by decide
theorem witness_EstimatesAreConservative :
    fullBuffer.Inv ∧ fullBuffer.count = fullBuffer.cfg.slots - 1 ∧ emptyBuffer.Inv ∧ emptyBuffer.count = 0 ∧
    oneByte.Inv ∧ oneByte.seesEmpty = false :=
  ⟨by decide, by decide, by decide, by decide, by decide, by decide⟩
theorem witness_LaggedAddsOnlyConservativeAnswers :
    staleHead.Inv ∧ staleHead.cfg.view = .lagged ∧ (∃ t, move (.command .p 0x0144#16) staleHead = .next t) ∧
    staleTail.Inv ∧ ∃ t, move (.command .q 0x0200#16) staleTail = .next t := ⟨by decide, by decide, ⟨_, rfl⟩, by decide, _, rfl⟩
theorem witness_SyncedLaggedIsCoherent :
    staleTail.Inv ∧ staleTail.cfg.view = .lagged ∧
    (∃ t, moves [.sync .p, .sync .q, .command .q 0x0200#16] staleTail = .next t) ∧
    ∃ u, move (.command .q 0x0200#16) staleTail.asCoherent = .next u := ⟨by decide, by decide, ⟨_, rfl⟩, _, rfl⟩

/-- An endless execution from `staleTail`: SyncQ once, and then SyncP, which has nothing to copy. -/
def syncedRun (n : Nat) : State :=
  match n with
  | 0 => staleTail
  | _ + 1 => after [.sync .q] staleTail

/-- The steps of that execution. -/
def syncedLabel (n : Nat) : Move :=
  match n with
  | 0 => .sync .q
  | _ + 1 => .sync .p

theorem witness_FairSyncEndsStaleAnswers :
    Execution syncedRun syncedLabel ∧ (syncedRun 0).Inv ∧ (syncedRun 0).cfg.view = .lagged ∧
    (∀ n, syncedLabel n ≠ .reset) ∧ WeaklyFair .q syncedRun syncedLabel ∧ WeaklyFair .p syncedRun syncedLabel ∧
    0 < (syncedRun 0).count ∧ (syncedRun 0).count < (syncedRun 0).cfg.slots - 1 := by
  refine ⟨?_, by decide, by decide, ?_, ?_, ?_, by decide, by decide⟩
  · intro n
    cases n <;> rfl
  · intro n
    cases n <;> simp [syncedLabel]
  · intro n h
    have : syncEnabled .q (syncedRun (n + 1)) = true := h (n + 1) (by omega)
    exact absurd this (by show syncEnabled .q (after [.sync .q] staleTail) ≠ true; decide)
  · intro n h
    have : syncEnabled .p (syncedRun (n + 1)) = true := h (n + 1) (by omega)
    exact absurd this (by show syncEnabled .p (after [.sync .q] staleTail) ≠ true; decide)

/-- Both ports part way through: a byte stored and not published, and the oldest byte read and not consumed. -/
def midway : SplitState :=
  { block := { oneByte with mem := Memory.write oneByte.mem 1 0x42#8 }, producer := .stored 0x42#8, consumer := .loaded 0x41#8 }

theorem witness_midway_stands_for_one_byte : oneByte.Inv ∧ StandsFor midway oneByte := by
  refine ⟨by decide, rfl, rfl, rfl, rfl, rfl, rfl, rfl, by decide, ?_, ?_, ?_⟩
  · intro i hi
    rcases hi with hi | hi
    · cases hi
    · exact (Memory.read_write_other oneByte.mem 1 i 0x42#8 (by decide) (Ne.symm hi)).symm
  · intro b hb
    cases hb
    decide
  · intro b hb
    cases hb
    decide
theorem witness_HalfStepsRefineAtomicCommands :
    (∃ m', halfStep .publishTail midway = some m') ∧ (∃ m', halfStep .publishHead midway = some m') ∧
    ∃ m', halfStep (.storeByte 0x42#8) { block := oneByte, producer := .idle, consumer := .idle } = some m' :=
  ⟨⟨_, rfl⟩, ⟨_, rfl⟩, _, rfl⟩
theorem witness_IndexWriteIsTheLinearizationPoint :
    midway.producer = .stored 0x42#8 ∧ midway.consumer = .loaded 0x41#8 ∧
    (∃ m', halfStep .publishTail midway = some m') ∧ ∃ m', halfStep .publishHead midway = some m' :=
  ⟨rfl, rfl, ⟨_, rfl⟩, _, rfl⟩
theorem witness_LinesAssembleToTheirWords :
    255 < 256 ∧ 256 ≤ 256 ∧ 0x0200 < 65536 ∧ decode (BitVec.ofNat 16 0x0200) = .ok .pop ∧ 0x0201 < 65536 ∧
    isReserved (BitVec.ofNat 16 0x0201) = true := by decide
theorem witness_TextExpandsToOnePushEach : ∀ c ∈ [0x24, 0x47, 0x0A, 0xFF], c < 256 := by decide
theorem witness_ScriptCommandBindsItsResponse : oneByte.Inv ∧ oneByte.schedule = [] := by decide

end Sys2Proof.Machine
end

section
/-! `modC` as the remainder of integer division, with the rule that recognises it (00_scope.md R10). -/

namespace Sys2Proof.Machine

theorem natCast_modC {c : Nat} (x : Int) (hc : 0 < c) : (modC c x : Int) = x % (c : Int) :=
  Int.toNat_of_nonneg (Int.emod_nonneg x (by omega))

theorem dvd_sub_modC {c : Nat} (x : Int) (hc : 0 < c) : (c : Int) ∣ x - modC c x := by
  rw [natCast_modC x hc]
  exact Int.dvd_self_sub_emod

/-- Two numbers below `c` that leave a multiple of `c` when taken from `x` are the same number. -/
theorem eq_modC_of_dvd_sub {c r : Nat} {x : Int} (hr : r < c) (h : (c : Int) ∣ x - r) : r = modC c x := by
  have hmod : (r : Int) % c = x % c := Int.modEq_iff_dvd.mpr h
  rw [← Int.natCast_mod, Nat.mod_eq_of_lt hr] at hmod
  have hcast := natCast_modC x (Nat.zero_lt_of_lt hr)
  omega

/-- Settles O22: the remainder of integer division is below `c` and congruent to `x`, and congruent numbers below `c`
are equal; `inc` and `distC` are defined from it, and the worked examples evaluate. -/
theorem indexArithmeticIsModuloCapacity : Obligations.IndexArithmeticIsModuloCapacity := by
  intro c x hc
  have hexamples : modC 4 (-1) = 3 ∧ inc 4 3 = 0 ∧ distC 4 1 3 = 2 := by decide
  exact ⟨⟨modC_lt x hc, dvd_sub_modC x hc, fun _ => eq_modC_of_dvd_sub⟩, fun _ => rfl, fun _ _ => rfl, hexamples⟩

end Sys2Proof.Machine
end

section
/-! The views and the sync steps under each view model (10_state.md R24, 20_memory.md R51): when a sync step is enabled,
and what it does when it is. -/

namespace Sys2Proof.Machine

variable {s : State}

theorem hv_of_coherent (hc : s.cfg.view = .coherent) : s.hv = s.head := by simp [State.hv, hc]

theorem tv_of_coherent (hc : s.cfg.view = .coherent) : s.tv = s.tail := by simp [State.tv, hc]

theorem hv_of_lagged (hl : s.cfg.view = .lagged) : s.hv = s.hvLag := by simp [State.hv, hl]

theorem tv_of_lagged (hl : s.cfg.view = .lagged) : s.tv = s.tvLag := by simp [State.tv, hl]

theorem syncEnabled_of_coherent (pt : Port) (hc : s.cfg.view = .coherent) : syncEnabled pt s = false := by
  simp [syncEnabled, hc]

theorem syncEnabled_p_iff (hl : s.cfg.view = .lagged) : syncEnabled .p s = true ↔ s.hv ≠ s.head := by
  simp [syncEnabled, hl, hv_of_lagged hl]

theorem syncEnabled_q_iff (hl : s.cfg.view = .lagged) : syncEnabled .q s = true ↔ s.tv ≠ s.tail := by
  simp [syncEnabled, hl, tv_of_lagged hl]

/-- The whole effect of an enabled SyncP: the view and the record. -/
theorem move_sync_p_of_enabled (he : syncEnabled .p s = true) :
    move (.sync .p) s = .next { s with hvLag := s.head, history := .synced .p :: s.history } := by
  simp [move, syncView, he]

/-- The whole effect of an enabled SyncQ: the view and the record. -/
theorem move_sync_q_of_enabled (he : syncEnabled .q s = true) :
    move (.sync .q) s = .next { s with tvLag := s.tail, history := .synced .q :: s.history } := by
  simp [move, syncView, he]

/-- Settles O43: under `lagged` a sync step is enabled by a view that differs from its index, and an enabled one copies
that index; under `coherent` the views are the indices and no sync step is enabled. -/
theorem syncStepsCopyTheIndices : Obligations.SyncStepsCopyTheIndices := by
  intro s
  refine ⟨fun hl => ⟨syncEnabled_p_iff hl, syncEnabled_q_iff hl, fun hne => ?_, fun hne => ?_⟩, fun hc =>
    ⟨hv_of_coherent hc, tv_of_coherent hc, fun pt => syncEnabled_of_coherent pt hc⟩⟩
  · exact ⟨_, move_sync_p_of_enabled ((syncEnabled_p_iff hl).mpr hne), hv_of_lagged hl, rfl⟩
  · exact ⟨_, move_sync_q_of_enabled ((syncEnabled_q_iff hl).mpr hne), tv_of_lagged hl, rfl⟩

end Sys2Proof.Machine
end

section
/-! The decoder as conditions on the two bytes of a word, and the masks of R68's table as tests of those bytes
(30_encoding.md R67, R68). -/

namespace Sys2Proof

variable {w : Word}

/-- A word decodes to the command whose OP and ARG it holds, and to no other. -/
theorem decode_eq_ok_iff {i : Instr} : decode w = .ok i ↔ highByte w = i.op ∧ lowByte w = i.arg := by
  constructor
  · intro h
    obtain ⟨_, hd, hop, harg⟩ | ⟨hd, hop, harg⟩ | ⟨hd, hop, harg⟩ | ⟨hd, -⟩ | ⟨hd, -⟩ := decode_cases w <;>
      cases hd.symm.trans h <;> exact ⟨hop, harg⟩
  · rintro ⟨hop, harg⟩
    cases i <;> simp [decode, hop, harg, Instr.op, Instr.arg]

/-- The reserved words are those that decode to none of the three commands (R67). -/
theorem isReserved_iff :
    isReserved w = true ↔ (∀ b, decode w ≠ .ok (.push b)) ∧ decode w ≠ .ok .pop ∧ decode w ≠ .ok .isempty := by
  unfold isReserved
  cases decode w with
  | error _ => simp
  | ok i => cases i <;> simp

theorem word_eq_iff {v : Word} : w = v ↔ highByte w = highByte v ∧ lowByte w = lowByte v :=
  ⟨fun h => h ▸ ⟨rfl, rfl⟩, fun ⟨hh, hl⟩ => word_ext hh hl⟩

theorem highByte_and (v : Word) : highByte (w &&& v) = highByte w &&& highByte v := BitVec.extractLsb'_and

theorem lowByte_and (v : Word) : lowByte (w &&& v) = lowByte w &&& lowByte v := BitVec.extractLsb'_and

/-- The mask of PUSH's row keeps OP and clears ARG. -/
theorem and_opMask_eq_wordOf_iff {op : Byte} : w &&& 0xFF00#16 = wordOf op 0x00#8 ↔ highByte w = op := by
  have hh : highByte 0xFF00#16 = BitVec.allOnes 8 := rfl
  have hl : lowByte 0xFF00#16 = 0#8 := rfl
  rw [word_eq_iff, highByte_and, lowByte_and, hh, hl, BitVec.and_allOnes, BitVec.and_zero]
  simp

/-- The mask of the other two rows keeps the whole word. -/
theorem and_fullMask_eq_wordOf_iff {op arg : Byte} :
    w &&& 0xFFFF#16 = wordOf op arg ↔ highByte w = op ∧ lowByte w = arg := by
  have hmask : w &&& 0xFFFF#16 = w := BitVec.and_allOnes
  rw [hmask, word_eq_iff, highByte_wordOf, lowByte_wordOf]

theorem decode_push_iff_masked : (∃ b, decode w = .ok (.push b)) ↔ w &&& 0xFF00#16 = 0x0100#16 := by
  have hop : w &&& 0xFF00#16 = 0x0100#16 ↔ highByte w = 0x01#8 := and_opMask_eq_wordOf_iff (op := 0x01#8)
  simp [hop, decode_eq_ok_iff, Instr.op, Instr.arg]

theorem decode_pop_iff_masked : decode w = .ok .pop ↔ w &&& 0xFFFF#16 = 0x0200#16 :=
  decode_eq_ok_iff.trans and_fullMask_eq_wordOf_iff.symm

theorem decode_isempty_iff_masked : decode w = .ok .isempty ↔ w &&& 0xFFFF#16 = 0x0300#16 :=
  decode_eq_ok_iff.trans and_fullMask_eq_wordOf_iff.symm

/-- The rows of R68's table are the three masked tests. -/
theorem no_row_covers_iff :
    (∀ r ∈ opcodeRows, r.covers w = false) ↔
      w &&& 0xFF00#16 ≠ 0x0100#16 ∧ w &&& 0xFFFF#16 ≠ 0x0200#16 ∧ w &&& 0xFFFF#16 ≠ 0x0300#16 := by
  simp [opcodeRows, OpcodeRow.covers]

theorem isReserved_iff_no_row_covers : isReserved w = true ↔ ∀ r ∈ opcodeRows, r.covers w = false := by
  rw [isReserved_iff, no_row_covers_iff, ← not_exists]
  exact and_congr decode_push_iff_masked.not (and_congr decode_pop_iff_masked.not decode_isempty_iff_masked.not)

/-- Settles O4: the decoder's arms are conditions on the two bytes of the word, and so are the masked tests. -/
theorem decoderFollowsMatchAndMask : Obligations.DecoderFollowsMatchAndMask := by
  intro w
  exact ⟨fun hop => decode_eq_ok_iff.mpr ⟨hop, rfl⟩, fun hop harg => decode_eq_ok_iff.mpr ⟨hop, harg⟩,
    fun hop harg => decode_eq_ok_iff.mpr ⟨hop, harg⟩, decode_push_iff_masked, decode_pop_iff_masked,
    decode_isempty_iff_masked, isReserved_iff_no_row_covers⟩

end Sys2Proof
end

section
/-! What a command word on a port is answered, by the outcome of its tests (30_encoding.md R65, R66). -/

namespace Sys2Proof.Machine

variable {s t : State} {pt : Port} {w : Word}

theorem seesFull_eq_true_iff : s.seesFull = true ↔ inc s.cfg.slots s.tail = s.hv := decide_eq_true_iff

theorem seesFull_eq_false_iff : s.seesFull = false ↔ inc s.cfg.slots s.tail ≠ s.hv := decide_eq_false_iff_not

theorem seesEmpty_eq_true_iff : s.seesEmpty = true ↔ s.head = s.tv := decide_eq_true_iff

theorem seesEmpty_eq_false_iff : s.seesEmpty = false ↔ s.head ≠ s.tv := decide_eq_false_iff_not

/-- The seven outcomes of a command: a fault, or its body's answer on its own port (60_exceptions.md R114). -/
theorem move_command_next (h : move (.command pt w) s = .next t) :
    (isReserved w = true ∧ t = raiseFault .errReserved (present pt w s)) ∨
    (∃ i, decode w = .ok i ∧ i.port ≠ pt ∧ t = raiseFault .errPort (present pt w s)) ∨
    (∃ b, decode w = .ok (.push b) ∧ pt = .p ∧ inc s.cfg.slots s.tail = s.hv ∧
      t = respond .overflow 0x00#8 (present pt w s)) ∨
    (∃ b, decode w = .ok (.push b) ∧ pt = .p ∧ inc s.cfg.slots s.tail ≠ s.hv ∧ t = afterPush b (present pt w s)) ∨
    (decode w = .ok .pop ∧ pt = .q ∧ s.head = s.tv ∧ t = respond .empty 0x00#8 (present pt w s)) ∨
    (decode w = .ok .pop ∧ pt = .q ∧ s.head ≠ s.tv ∧ t = afterPop (present pt w s)) ∨
    (decode w = .ok .isempty ∧ pt = .q ∧
      t = respond .ok (if s.head = s.tv then 0x01#8 else 0x00#8) (present pt w s)) := by
  obtain ⟨_, _, e, hm, hd, ht⟩ | ⟨_, _, i, hm, hd, he⟩ | ⟨_, hm, -⟩ | ⟨hm, -⟩ := move_next h
  · cases hm
    exact .inl ⟨by simp [isReserved, hd], ht⟩
  · cases hm
    obtain ⟨-, ⟨hp, ht⟩ | ⟨hp, hbody⟩⟩ := exec_next he
    · exact .inr (.inl ⟨i, hd, Ne.symm hp, ht⟩)
    obtain ⟨b, rfl, hf, ht⟩ | ⟨b, rfl, hf, -, ht⟩ | ⟨rfl, hv, ht⟩ | ⟨rfl, hv, -, ht⟩ | ⟨rfl, ht⟩ := hbody
    · exact .inr (.inr (.inl ⟨b, hd, hp, seesFull_eq_true_iff.mp hf, ht⟩))
    · exact .inr (.inr (.inr (.inl ⟨b, hd, hp, seesFull_eq_false_iff.mp hf, ht⟩)))
    · exact .inr (.inr (.inr (.inr (.inl ⟨hd, hp, seesEmpty_eq_true_iff.mp hv, ht⟩))))
    · exact .inr (.inr (.inr (.inr (.inr (.inl ⟨hd, hp, seesEmpty_eq_false_iff.mp hv, ht⟩)))))
    · exact .inr (.inr (.inr (.inr (.inr (.inr ⟨hd, hp, by simpa [seesEmpty_eq_true_iff] using ht⟩)))))
  · cases hm
  · cases hm

theorem sameBlock_respond_present (st : Status) (val : Byte) : SameBlock s (respond st val (present pt w s)) :=
  ⟨rfl, rfl, rfl, rfl, fun _ => rfl⟩

theorem sameBlock_raiseFault_present (k : FaultKind) : SameBlock s (raiseFault k (present pt w s)) :=
  ⟨rfl, rfl, rfl, rfl, fun _ => rfl⟩

/-- Raising a fault answers one of the two error codes and adds a record (60_exceptions.md R117). -/
theorem errorCode_iff_log_raiseFault (k : FaultKind) :
    (highByte (responseWord k.status 0x00#8) = 0xE0#8 ∨ highByte (responseWord k.status 0x00#8) = 0xE1#8) ↔
      (raiseFault k (present pt w s)).faults ≠ s.faults := by
  cases k <;> simp [FaultKind.status, Status.code]

/-- Settles O11: each of the seven outcomes of a command has its ST, and only raising a fault changes the log. -/
theorem statusIsProducedByItsCommand : Obligations.StatusIsProducedByItsCommand := by
  intro s t pt w h
  obtain ⟨hr, rfl⟩ | ⟨i, hd, hp, rfl⟩ | ⟨b, hd, hp, hf, rfl⟩ | ⟨b, hd, hp, hf, rfl⟩ | ⟨hd, hp, he, rfl⟩ |
    ⟨hd, hp, he, rfl⟩ | ⟨hd, hp, rfl⟩ := move_command_next h
  -- a reserved word
  · exact ⟨_, rfl, .inr (.inr (.inr (.inl ⟨highByte_responseWord _ _, hr, sameBlock_raiseFault_present _⟩))),
      errorCode_iff_log_raiseFault _⟩
  -- a command on the wrong port
  · exact ⟨_, rfl, .inr (.inr (.inr (.inr ⟨highByte_responseWord _ _, ⟨i, hd, hp⟩, sameBlock_raiseFault_present _⟩))),
      errorCode_iff_log_raiseFault _⟩
  -- PUSH seen full
  · exact ⟨_, rfl, .inr (.inr (.inl ⟨highByte_responseWord _ _, ⟨b, hd⟩, hp, hf, sameBlock_respond_present _ _⟩)),
      by simp [Status.code]⟩
  -- PUSH accepted
  · exact ⟨_, rfl, .inl ⟨highByte_responseWord _ _, .inl ⟨⟨b, hd⟩, hp, hf, rfl⟩⟩, by simp [Status.code, afterPush]⟩
  -- POP seen empty
  · exact ⟨_, rfl, .inr (.inl ⟨highByte_responseWord _ _, hd, hp, he, sameBlock_respond_present _ _⟩),
      by simp [Status.code]⟩
  -- POP of a byte
  · exact ⟨_, rfl, .inl ⟨highByte_responseWord _ _, .inr (.inl ⟨hd, hp, he, rfl⟩)⟩, by simp [Status.code, afterPop]⟩
  -- ISEMPTY
  · exact ⟨_, rfl, .inl ⟨highByte_responseWord _ _, .inr (.inr ⟨hd, hp, sameBlock_respond_present _ _⟩)⟩,
      by simp [Status.code]⟩

/-- Settles O12: VAL is read off the seven outcomes of a command, in each of which ST is known. -/
theorem valueByteIsAsTheRuleSays : Obligations.ValueByteIsAsTheRuleSays := by
  intro s t pt w h
  obtain ⟨hr, rfl⟩ | ⟨i, hd, hp, rfl⟩ | ⟨b, hd, hp, hf, rfl⟩ | ⟨b, hd, hp, hf, rfl⟩ | ⟨hd, hp, he, rfl⟩ |
    ⟨hd, hp, he, rfl⟩ | ⟨hd, hp, rfl⟩ := move_command_next h
  -- a reserved word
  · refine ⟨_, rfl, ?_⟩
    simp [isReserved_iff.mp hr, FaultKind.status]
  -- a command on the wrong port
  · refine ⟨_, rfl, by simp [FaultKind.status, Status.code], by simp [FaultKind.status, Status.code], ?_,
      fun _ => lowByte_responseWord _ _⟩
    rintro ⟨hpop, rfl⟩
    cases hd.symm.trans hpop
    exact absurd rfl hp
  -- PUSH seen full
  · refine ⟨_, rfl, ?_⟩
    simp [hd]
  -- PUSH accepted
  · refine ⟨_, rfl, ?_⟩
    simp [hd]
  -- POP seen empty
  · refine ⟨_, rfl, ?_⟩
    simp [hd, he, Status.code]
  -- POP of a byte
  · refine ⟨_, rfl, ?_⟩
    simp [hd, hp, he, Status.code]
  -- ISEMPTY
  · refine ⟨_, rfl, ?_⟩
    simp [hd, hp, Status.code]

end Sys2Proof.Machine
end

section
/-! What a PUSH on its own port leaves, per slot and per field (40_producer_port.md R80). -/

namespace Sys2Proof.Machine

variable {s : State} {b : Byte}

theorem decode_wordOf_push (b : Byte) : decode (wordOf 0x01#8 b) = .ok (.push b) :=
  decode_eq_ok_iff.mpr ⟨highByte_wordOf _ _, lowByte_wordOf _ _⟩

theorem sameBlock_respond (st : Status) (val : Byte) : SameBlock s (respond st val s) :=
  ⟨rfl, rfl, rfl, rfl, fun _ => rfl⟩

theorem sameSetting_respond (st : Status) (val : Byte) : SameSetting s (respond st val s) :=
  ⟨rfl, rfl, rfl, rfl, rfl, rfl⟩

theorem sameSetting_afterPush : SameSetting s (afterPush b s) := ⟨rfl, rfl, rfl, rfl, rfl, rfl⟩

theorem history_respond_of_port {pt : Port} (st : Status) (val : Byte) (hp : s.port = pt) :
    (respond st val s).history = .answered pt s.cmd (responseWord st val) :: s.history := by
  rw [respond_history, hp]

theorem history_afterPush (hp : s.port = .p) :
    (afterPush b s).history = .answered .p s.cmd 0x0000#16 :: s.history :=
  history_respond_of_port .ok 0x00#8 hp

theorem afterPush_slot_tail (hm : Memory.wf s.mem) : (afterPush b s).slot s.tail = b :=
  Memory.read_write_same s.mem s.tail b hm

theorem afterPush_slot_of_ne {j : Nat} (hm : Memory.wf s.mem) (hj : j ≠ s.tail) :
    (afterPush b s).slot j = s.slot j :=
  Memory.read_write_other s.mem s.tail j b hm hj.symm

/-- Settles O13: PUSH answers OVERFLOW over the same state when its view is full, and else leaves `afterPush`. -/
theorem pushStoresOrDrops : Obligations.PushStoresOrDrops := by
  intro s b hl hm hp
  refine ⟨decode_wordOf_push b, fun hfull => ?_, fun hroom ht => ?_⟩
  · exact ⟨_, exec_push_of_full hl hp (seesFull_eq_true_iff.mpr hfull), history_respond_of_port .overflow 0x00#8 hp,
      rfl, sameBlock_respond _ _, sameSetting_respond _ _⟩
  · exact ⟨_, exec_push_of_room hl hp (seesFull_eq_false_iff.mpr hroom) ht, history_afterPush hp,
      afterPush_slot_tail hm, fun _ hj => afterPush_slot_of_ne hm hj, rfl, rfl, rfl, rfl, rfl, sameSetting_afterPush⟩

end Sys2Proof.Machine
end

section
/-! What a POP and an ISEMPTY on their own port answer and leave (41_consumer_port.md R90, R91). -/

namespace Sys2Proof.Machine

variable {s : State}

theorem sameSetting_afterPop : SameSetting s (afterPop s) := ⟨rfl, rfl, rfl, rfl, rfl, rfl⟩

theorem history_afterPop (hp : s.port = .q) :
    (afterPop s).history = .answered .q s.cmd (wordOf 0x00#8 (s.slot s.head)) :: s.history :=
  history_respond_of_port (s := { s with head := inc s.cfg.slots s.head }) .ok (s.slot s.head) hp

/-- VAL of the answer to ISEMPTY is the consumer's test of emptiness. -/
theorem responseWord_ok_seesEmpty :
    responseWord .ok (if s.seesEmpty then 0x01#8 else 0x00#8) = if s.head = s.tv then 0x0001#16 else 0x0000#16 := by
  by_cases he : s.head = s.tv
  · rw [if_pos he, if_pos (seesEmpty_eq_true_iff.mpr he)]
    rfl
  · rw [if_neg he, seesEmpty_eq_false_iff.mpr he]
    rfl

/-- Settles O14: POP answers EMPTY over the same state when its view is empty, and else leaves `afterPop`. -/
theorem popReturnsOldestOrEmpty : Obligations.PopReturnsOldestOrEmpty := by
  intro s hl hp
  refine ⟨decode_eq_ok_iff.mpr ⟨rfl, rfl⟩, fun hempty => ?_, fun hbyte hh => ?_⟩
  · exact ⟨_, exec_pop_of_empty hl hp (seesEmpty_eq_true_iff.mpr hempty), history_respond_of_port .empty 0x00#8 hp,
      rfl, sameBlock_respond _ _, sameSetting_respond _ _⟩
  · exact ⟨_, exec_pop_of_byte hl hp (seesEmpty_eq_false_iff.mpr hbyte) hh, history_afterPop hp,
      rfl, rfl, rfl, rfl, fun _ => rfl, rfl, sameSetting_afterPop⟩

/-- Settles O15: ISEMPTY is one response over the same state, with the consumer's test of emptiness as its VAL. -/
theorem isemptyReportsWithoutChange : Obligations.IsemptyReportsWithoutChange := by
  intro s hl hp
  have hanswer := history_respond_of_port .ok (if s.seesEmpty then 0x01#8 else 0x00#8) hp
  rw [responseWord_ok_seesEmpty] at hanswer
  exact ⟨decode_eq_ok_iff.mpr ⟨rfl, rfl⟩, _, exec_isempty_on_q hl hp, hanswer, rfl, sameBlock_respond _ _,
    sameSetting_respond _ _⟩

end Sys2Proof.Machine
end

section
/-! What a command word that starts no command leaves: the fault's record and answer, and nothing else
(60_exceptions.md R112, R113, R117). -/

namespace Sys2Proof.Machine

variable {s : State} {pt : Port} {w : Word}

/-- The bytes R67 reserves are those of no command. -/
theorem exists_decode_eq_error
    (hw : (highByte w ≠ 0x01#8 ∧ highByte w ≠ 0x02#8 ∧ highByte w ≠ 0x03#8) ∨
      ((highByte w = 0x02#8 ∨ highByte w = 0x03#8) ∧ lowByte w ≠ 0x00#8)) :
    ∃ e, decode w = .error e := by
  cases hd : decode w with
  | error e => exact ⟨e, rfl⟩
  | ok i =>
    obtain ⟨hop, harg⟩ := decode_eq_ok_iff.mp hd
    cases i <;> simp [hop, harg, Instr.op, Instr.arg] at hw

theorem move_command_of_reserved {e : Reserved} (hd : decode w = .error e) :
    move (.command pt w) s = .next (raiseFault .errReserved (present pt w s)) :=
  dispatch_of_reserved (s := present pt w s) hd

theorem sameBlock_raiseFault (k : FaultKind) : SameBlock s (raiseFault k s) := ⟨rfl, rfl, rfl, rfl, fun _ => rfl⟩

theorem sameSetting_raiseFault (k : FaultKind) : SameSetting s (raiseFault k s) := ⟨rfl, rfl, rfl, rfl, rfl, rfl⟩

theorem responseWord_errReserved : responseWord FaultKind.errReserved.status 0x00#8 = 0xE000#16 := rfl

theorem responseWord_errPort : responseWord FaultKind.errPort.status 0x00#8 = 0xE100#16 := rfl

/-- Settles O8: a word with reserved bytes decodes to no command, so its step raises the fault of R112 and stops. -/
theorem reservedWordAnswersErrReserved : Obligations.ReservedWordAnswersErrReserved := by
  intro s pt w hw
  obtain ⟨e, hd⟩ := exists_decode_eq_error hw
  refine ⟨_, move_command_of_reserved hd, raiseFault_faults _ _, ?_, sameBlock_raiseFault_present _,
    sameSetting_raiseFault _⟩
  rw [raiseFault_history, responseWord_errReserved, present_port, present_cmd, present_history]

/-- Settles O9: PUSH belongs to P, POP and ISEMPTY to Q, and a command off its own port raises the fault of R113. -/
theorem wrongPortAnswersErrPort : Obligations.WrongPortAnswersErrPort := by
  intro s i hl hwrong
  have hp : s.port ≠ i.port := by
    obtain ⟨⟨b, rfl⟩, hq⟩ | ⟨rfl | rfl, hq⟩ := hwrong <;> simp [hq, Instr.port]
  refine ⟨_, exec_of_wrong_port hl hp, raiseFault_faults _ _, ?_, sameBlock_raiseFault _, sameSetting_raiseFault _⟩
  rw [raiseFault_history, responseWord_errPort]

end Sys2Proof.Machine
end

section
/-! A command word is answered in its own step: from a next state of the command to its one record
(70_reset_and_hazards.md R138). -/

namespace Sys2Proof.Machine

variable {s : State} {pt : Port} {w : Word} {i : Instr}

theorem move_command_of_ok (hd : decode w = .ok i) : move (.command pt w) s = exec i (present pt w s) :=
  dispatch_of_ok (s := present pt w s) hd

/-- With the indices inside the storage (10_state.md R21, R22) no command stops. -/
theorem exists_exec_eq_next (hl : s.cfg.wellFormed = true) (hh : s.head < s.cfg.slots) (ht : s.tail < s.cfg.slots) :
    ∃ t, exec i s = .next t := by
  by_cases hp : s.port = i.port
  · cases i with
    | push b =>
      cases hf : s.seesFull with
      | true => exact ⟨_, exec_push_of_full hl hp hf⟩
      | false => exact ⟨_, exec_push_of_room hl hp hf ht⟩
    | pop =>
      cases he : s.seesEmpty with
      | true => exact ⟨_, exec_pop_of_empty hl hp he⟩
      | false => exact ⟨_, exec_pop_of_byte hl hp he hh⟩
    | isempty => exact ⟨_, exec_isempty_on_q hl hp⟩
  · exact ⟨_, exec_of_wrong_port hl hp⟩

theorem exists_move_command_eq_next (hl : s.cfg.wellFormed = true) (hh : s.head < s.cfg.slots)
    (ht : s.tail < s.cfg.slots) : ∃ t, move (.command pt w) s = .next t := by
  cases hd : decode w with
  | error e => exact ⟨_, move_command_of_reserved hd⟩
  | ok i =>
    rw [move_command_of_ok hd]
    exact exists_exec_eq_next hl hh ht

/-- Settles O10: the step answers a next state, and every next state of a command has its response as newest event
(R65). -/
theorem everyCommandIsAnsweredAtOnce : Obligations.EveryCommandIsAnsweredAtOnce := by
  intro s pt w hl hh ht
  obtain ⟨t, hm⟩ := exists_move_command_eq_next hl hh ht
  obtain ⟨rsp, hanswer, -⟩ := statusIsProducedByItsCommand s t pt w hm
  exact ⟨t, rsp, hm, hanswer⟩

end Sys2Proof.Machine
end

section
/-! What the reset event makes of the views and the derived conditions, and what of the storage and the record it leaves
(70_reset_and_hazards.md R130). -/

namespace Sys2Proof.Machine

variable (s : State)

/-- A view is 0 after a reset in either build: it is the index, or it is the copy the event clears. -/
@[simp] theorem resetEvent_hv : (resetEvent s).hv = 0 := by
  cases hv : s.cfg.view with
  | coherent => exact hv_of_coherent (s := resetEvent s) hv
  | lagged => exact hv_of_lagged (s := resetEvent s) hv

@[simp] theorem resetEvent_tv : (resetEvent s).tv = 0 := by
  cases hv : s.cfg.view with
  | coherent => exact tv_of_coherent (s := resetEvent s) hv
  | lagged => exact tv_of_lagged (s := resetEvent s) hv

@[simp] theorem resetEvent_count : (resetEvent s).count = 0 := modC_zero s.cfg.slots

@[simp] theorem resetEvent_queue : (resetEvent s).queue = [] := queue_of_head_eq_tail rfl

@[simp] theorem resetEvent_slot (i : Nat) : (resetEvent s).slot i = s.slot i := rfl

@[simp] theorem receivedOn_reset (pt : Port) (h : List Event) : receivedOn pt (.reset :: h) = receivedOn pt h := by
  simp [receivedOn, receivedWord]

/-- Settles O26: each clause is a field or a derived condition of `resetEvent`. -/
theorem resetEventClearsTheBuffer : Obligations.ResetEventClearsTheBuffer := by
  intro s
  exact ⟨resetEvent s, rfl, resetEvent_head s, resetEvent_tail s, resetEvent_hv s, resetEvent_tv s,
    resetEvent_count s, resetEvent_queue s, resetEvent_slot s, resetEvent_faults s, receivedOn_reset .p s.history,
    receivedOn_reset .q s.history, resetEvent_cfg s⟩

end Sys2Proof.Machine
end

section
/-! The totals of 10_state.md R34 under either view model: one law for the indices and for what each port sees of
them. -/

namespace Sys2Proof.Machine

variable {s : State}

/-- The pops the producer knows of: `H` under `coherent`, `HV` under `lagged` (R24, R34). -/
def State.seenPops (s : State) : Nat :=
  match s.cfg.view with
  | .coherent => totalPops s.history
  | .lagged => popsAtSync s.history

/-- The pushes the consumer knows of: `T` under `coherent`, `TV` under `lagged` (R24, R34). -/
def State.seenPushes (s : State) : Nat :=
  match s.cfg.view with
  | .coherent => totalPushes s.history
  | .lagged => pushesAtSync s.history

/-- R34 with `HV` and `TV` read as what the ports know, so that both view models are one case. -/
structure State.TotalsLaw (s : State) : Prop where
  head          : s.head = totalPops s.history % s.cfg.slots
  tail          : s.tail = totalPushes s.history % s.cfg.slots
  hv            : s.hv = s.seenPops % s.cfg.slots
  tv            : s.tv = s.seenPushes % s.cfg.slots
  seenPops_le   : s.seenPops ≤ totalPops s.history
  pops_le       : totalPops s.history ≤ s.seenPushes
  seenPushes_le : s.seenPushes ≤ totalPushes s.history
  pushes_le     : totalPushes s.history ≤ s.seenPops + (s.cfg.slots - 1)

theorem seenPops_of_coherent (hc : s.cfg.view = .coherent) : s.seenPops = totalPops s.history := by
  simp [State.seenPops, hc]

theorem seenPops_of_lagged (hl : s.cfg.view = .lagged) : s.seenPops = popsAtSync s.history := by
  simp [State.seenPops, hl]

theorem seenPushes_of_coherent (hc : s.cfg.view = .coherent) : s.seenPushes = totalPushes s.history := by
  simp [State.seenPushes, hc]

theorem seenPushes_of_lagged (hl : s.cfg.view = .lagged) : s.seenPushes = pushesAtSync s.history := by
  simp [State.seenPushes, hl]

/-- The law of the totals is what the invariant says of the indices and of the views. -/
theorem totalsLaw_iff : s.TotalsLaw ↔ s.IndexInv ∧ s.ViewInv := by
  cases hv : s.cfg.view with
  | coherent =>
    simp only [State.IndexInv, State.ViewInv, hv, modC_natCast]
    refine ⟨fun h => ⟨⟨h.head, h.tail, ?_, ?_⟩, nofun⟩, fun ⟨⟨h1, h2, h3, h4⟩, _⟩ => ⟨h1, h2, ?_, ?_, ?_, ?_, ?_, ?_⟩⟩
    · exact h.pops_le.trans h.seenPushes_le
    · simpa [seenPops_of_coherent hv] using h.pushes_le
    all_goals simp [seenPops_of_coherent, seenPushes_of_coherent, hv_of_coherent, tv_of_coherent, *]
  | lagged =>
    simp only [State.IndexInv, State.ViewInv, hv, modC_natCast, true_implies]
    rw [← seenPops_of_lagged hv, ← seenPushes_of_lagged hv, ← hv_of_lagged hv, ← tv_of_lagged hv]
    refine ⟨fun h => ⟨⟨h.head, h.tail, ?_, ?_⟩, h.hv, h.tv, h.seenPops_le, h.pushes_le, h.pops_le, h.seenPushes_le⟩,
      fun ⟨⟨h1, h2, _, _⟩, h3, h4, h5, h6, h7, h8⟩ => ⟨h1, h2, h3, h4, h5, h7, h8, h6⟩⟩
    · exact h.pops_le.trans h.seenPushes_le
    · have := h.pushes_le
      have := h.seenPops_le
      omega

theorem State.Inv.legal (hi : s.Inv) : s.cfg.wellFormed = true := hi.1

theorem State.Inv.storage (hi : s.Inv) : s.StorageInv := by
  obtain ⟨-, hstorage, -⟩ := hi
  exact hstorage

theorem State.Inv.index (hi : s.Inv) : s.IndexInv := by
  obtain ⟨-, -, hindex, -⟩ := hi
  exact hindex

theorem State.Inv.views (hi : s.Inv) : s.ViewInv := by
  obtain ⟨-, -, -, hviews, -⟩ := hi
  exact hviews

theorem State.Inv.fifo (hi : s.Inv) : s.FifoLaw := by
  obtain ⟨-, -, -, -, hfifo⟩ := hi
  exact hfifo

theorem State.Inv.totals (hi : s.Inv) : s.TotalsLaw := totalsLaw_iff.mpr ⟨hi.index, hi.views⟩

/-- The bounds of R34 alone, for the arithmetic. -/
theorem State.Inv.bounds (hi : s.Inv) :
    2 ≤ s.cfg.slots ∧ s.seenPops ≤ totalPops s.history ∧ totalPops s.history ≤ s.seenPushes ∧
      s.seenPushes ≤ totalPushes s.history ∧ totalPushes s.history ≤ s.seenPops + (s.cfg.slots - 1) :=
  ⟨hi.two_le, hi.totals.seenPops_le, hi.totals.pops_le, hi.totals.seenPushes_le, hi.totals.pushes_le⟩

theorem producerCount_of_inv (hi : s.Inv) : s.producerCount = totalPushes s.history - s.seenPops := by
  obtain ⟨hc, hHV, hHTV, hTV, hTHV⟩ := hi.bounds
  rw [State.producerCount, hi.totals.tail, hi.totals.hv, distC_mod (by omega) (by omega)]

theorem consumerCount_of_inv (hi : s.Inv) : s.consumerCount = s.seenPushes - totalPops s.history := by
  obtain ⟨hc, hHV, hHTV, hTV, hTHV⟩ := hi.bounds
  rw [State.consumerCount, hi.totals.tv, hi.totals.head, distC_mod (by omega) (by omega)]

/-- The producer sees full when it knows of no pop that made room. -/
theorem seesFull_iff_totals (hi : s.Inv) :
    s.seesFull = true ↔ totalPushes s.history = s.seenPops + (s.cfg.slots - 1) := by
  obtain ⟨hc, hHV, hHTV, hTV, hTHV⟩ := hi.bounds
  rw [seesFull_of_inv hi, producerCount_of_inv hi]
  omega

theorem seesFull_eq_false_iff_totals (hi : s.Inv) :
    s.seesFull = false ↔ totalPushes s.history < s.seenPops + (s.cfg.slots - 1) := by
  have := hi.totals.pushes_le
  rw [← Bool.not_eq_true, seesFull_iff_totals hi]
  omega

/-- The consumer sees empty when it has popped every push it knows of. -/
theorem seesEmpty_iff_totals (hi : s.Inv) : s.seesEmpty = true ↔ s.seenPushes = totalPops s.history := by
  have := hi.totals.pops_le
  rw [seesEmpty_of_inv hi, consumerCount_of_inv hi]
  omega

theorem seesEmpty_eq_false_iff_totals (hi : s.Inv) : s.seesEmpty = false ↔ totalPops s.history < s.seenPushes := by
  have := hi.totals.pops_le
  rw [← Bool.not_eq_true, seesEmpty_iff_totals hi]
  omega

theorem State.Inv.hv_lt (hi : s.Inv) : s.hv < s.cfg.slots :=
  hi.totals.hv ▸ Nat.mod_lt _ (by have := hi.two_le; omega)

theorem State.Inv.tv_lt (hi : s.Inv) : s.tv < s.cfg.slots :=
  hi.totals.tv ▸ Nat.mod_lt _ (by have := hi.two_le; omega)

/-- The true test of fullness is the producer's, made with the true index (R27). -/
theorem full_iff (hi : s.Inv) : s.full = true ↔ inc s.cfg.slots s.tail = s.head := by
  obtain ⟨hc, hHV, hHTV, hTV, hTHV⟩ := hi.bounds
  rw [State.full, decide_eq_true_eq, State.count, hi.totals.head, hi.totals.tail]
  exact (inc_eq_iff hc (by omega) (by omega)).symm

theorem empty_iff (hi : s.Inv) : s.empty = true ↔ s.head = s.tail := by
  obtain ⟨hc, hHV, hHTV, hTV, hTHV⟩ := hi.bounds
  rw [State.empty, decide_eq_true_eq, count_of_inv hi, hi.totals.head, hi.totals.tail,
    mod_eq_iff (by omega) (by omega)]
  omega

/-- The slots from `head` up to `tail` are the used ones, and `tail` comes after the last (R29). -/
theorem tail_ne_usedSlot (hi : s.Inv) {k : Nat} (hk : k < s.count) :
    s.tail ≠ (s.head + k) % s.cfg.slots := by
  obtain ⟨hc, hHV, hHTV, hTV, hTHV⟩ := hi.bounds
  rw [count_of_inv hi] at hk
  rw [hi.totals.head, hi.totals.tail, Nat.mod_add_mod, Ne, eq_comm, mod_eq_iff (by omega) (by omega)]
  omega

theorem mem_usedSlots_iff {i : Nat} : i ∈ s.usedSlots ↔ ∃ k < s.count, (s.head + k) % s.cfg.slots = i := by
  simp [State.usedSlots, modC_natCast_add]

theorem freeSlot_tail (hi : s.Inv) : s.freeSlot s.tail = true := by
  have hfree : s.tail ∉ s.usedSlots := by
    rw [mem_usedSlots_iff]
    rintro ⟨k, hk, hslot⟩
    exact tail_ne_usedSlot hi hk hslot.symm
  simp [State.freeSlot, hi.index_lt.2, hfree]

theorem freeSlot_head (hi : s.Inv) (hcount : 0 < s.count) : s.freeSlot s.head = false := by
  have hused : s.head ∈ s.usedSlots := mem_usedSlots_iff.mpr ⟨0, hcount, Nat.mod_eq_of_lt hi.index_lt.1⟩
  simp [State.freeSlot, hused]

theorem count_le_producerCount (hi : s.Inv) : s.count ≤ s.producerCount := by
  obtain ⟨hc, hHV, hHTV, hTV, hTHV⟩ := hi.bounds
  rw [count_of_inv hi, producerCount_of_inv hi]
  omega

theorem consumerCount_le_count (hi : s.Inv) : s.consumerCount ≤ s.count := by
  obtain ⟨hc, hHV, hHTV, hTV, hTHV⟩ := hi.bounds
  rw [count_of_inv hi, consumerCount_of_inv hi]
  omega

theorem producerCount_le (hi : s.Inv) : s.producerCount ≤ s.cfg.slots - 1 := by
  obtain ⟨hc, hHV, hHTV, hTV, hTHV⟩ := hi.bounds
  rw [producerCount_of_inv hi]
  omega

theorem count_pos_of_not_seesEmpty (hi : s.Inv) (he : s.seesEmpty = false) : 0 < s.count := by
  have hle := consumerCount_le_count hi
  rw [← Bool.not_eq_true, seesEmpty_of_inv hi] at he
  omega

theorem seesFull_of_count (hi : s.Inv) (hfull : s.count = s.cfg.slots - 1) : s.seesFull = true := by
  have hproducer := count_le_producerCount hi
  have hmax := producerCount_le hi
  exact (seesFull_of_inv hi).mpr (by omega)

theorem seesEmpty_of_count (hi : s.Inv) (hempty : s.count = 0) : s.seesEmpty = true := by
  have hconsumer := consumerCount_le_count hi
  exact (seesEmpty_of_inv hi).mpr (by omega)

/-- Settles O24: indices and counts are the totals of R34 modulo `C`, and `tail` lies after the used slots. -/
theorem occupancyFollowsFromTotals : Obligations.OccupancyFollowsFromTotals := by
  intro s hi
  exact ⟨hi.index_lt.1, hi.index_lt.2, hi.hv_lt, hi.tv_lt, count_of_inv hi,
    (count_le_producerCount hi).trans (producerCount_le hi), queue_length s, full_iff hi, empty_iff hi,
    freeSlot_tail hi⟩

/-- Settles O44: the producer knows of no more pops than there were, the consumer of no more pushes. -/
theorem estimatesAreConservative : Obligations.EstimatesAreConservative := fun _ hi =>
  ⟨count_le_producerCount hi, consumerCount_le_count hi, seesFull_of_count hi, seesEmpty_of_count hi,
    fun hbyte => freeSlot_head hi (count_pos_of_not_seesEmpty hi hbyte)⟩

end Sys2Proof.Machine
end

section
/-! The fields and views of the states that an accepted PUSH and a POP of a byte leave. -/

namespace Sys2Proof.Machine

variable (b : Byte) (s : State)

@[simp] theorem afterPush_cfg : (afterPush b s).cfg = s.cfg := rfl
@[simp] theorem afterPush_head : (afterPush b s).head = s.head := rfl
@[simp] theorem afterPush_tail : (afterPush b s).tail = inc s.cfg.slots s.tail := rfl
@[simp] theorem afterPush_hvLag : (afterPush b s).hvLag = s.hvLag := rfl
@[simp] theorem afterPush_tvLag : (afterPush b s).tvLag = s.tvLag := rfl
@[simp] theorem afterPush_faults : (afterPush b s).faults = s.faults := rfl
@[simp] theorem afterPush_hv : (afterPush b s).hv = s.hv := rfl
@[simp] theorem popsAtSync_afterPush : popsAtSync (afterPush b s).history = popsAtSync s.history :=
  popsAtSync_answered _ _ _ _
@[simp] theorem pushesAtSync_afterPush : pushesAtSync (afterPush b s).history = pushesAtSync s.history :=
  pushesAtSync_answered _ _ _ _

@[simp] theorem afterPop_cfg : (afterPop s).cfg = s.cfg := rfl
@[simp] theorem afterPop_head : (afterPop s).head = inc s.cfg.slots s.head := rfl
@[simp] theorem afterPop_tail : (afterPop s).tail = s.tail := rfl
@[simp] theorem afterPop_hvLag : (afterPop s).hvLag = s.hvLag := rfl
@[simp] theorem afterPop_tvLag : (afterPop s).tvLag = s.tvLag := rfl
@[simp] theorem afterPop_faults : (afterPop s).faults = s.faults := rfl
@[simp] theorem afterPop_tv : (afterPop s).tv = s.tv := rfl
@[simp] theorem afterPop_slot (i : Nat) : (afterPop s).slot i = s.slot i := rfl
@[simp] theorem popsAtSync_afterPop : popsAtSync (afterPop s).history = popsAtSync s.history :=
  popsAtSync_answered _ _ _ _
@[simp] theorem pushesAtSync_afterPop : pushesAtSync (afterPop s).history = pushesAtSync s.history :=
  pushesAtSync_answered _ _ _ _

end Sys2Proof.Machine
end

section
/-! What each update of the block makes of the stored bytes (00_scope.md R12): an answer keeps them, an accepted PUSH
adds one at the end, a POP takes the first one off. -/

namespace Sys2Proof.Machine

variable {s : State} {b : Byte}

theorem queue_eq_map_slot (s : State) :
    s.queue = (List.range s.count).map fun k => s.slot ((s.head + k) % s.cfg.slots) := by
  simp only [State.queue, State.usedSlots, List.map_map, Function.comp_def, modC_natCast_add]

theorem head_add_count (hi : s.Inv) : (s.head + s.count) % s.cfg.slots = s.tail := by
  obtain ⟨hc, hHV, hHTV, hTV, hTHV⟩ := hi.bounds
  rw [count_of_inv hi, hi.totals.head, hi.totals.tail, Nat.mod_add_mod, Nat.add_sub_cancel' (by omega)]

theorem count_afterPush (hi : s.Inv) (hf : s.seesFull = false) : (afterPush b s).count = s.count + 1 := by
  obtain ⟨hc, hHV, hHTV, hTV, hTHV⟩ := hi.bounds
  rw [seesFull_eq_false_iff_totals hi] at hf
  change distC s.cfg.slots (inc s.cfg.slots s.tail) s.head = s.count + 1
  rw [count_of_inv hi, hi.totals.head, hi.totals.tail, inc_mod, distC_mod (by omega) (by omega)]
  omega

theorem count_afterPop (hi : s.Inv) (he : s.seesEmpty = false) : s.count = (afterPop s).count + 1 := by
  obtain ⟨hc, hHV, hHTV, hTV, hTHV⟩ := hi.bounds
  rw [seesEmpty_eq_false_iff_totals hi] at he
  change s.count = distC s.cfg.slots s.tail (inc s.cfg.slots s.head) + 1
  rw [count_of_inv hi, hi.totals.head, hi.totals.tail, inc_mod, distC_mod (by omega) (by omega)]
  omega

/-- The byte goes to the slot after the used ones, and no used slot is written. -/
theorem queue_afterPush (hi : s.Inv) (hf : s.seesFull = false) : (afterPush b s).queue = s.queue ++ [b] := by
  have hkept : ∀ k ∈ List.range s.count,
      (afterPush b s).slot ((s.head + k) % s.cfg.slots) = s.slot ((s.head + k) % s.cfg.slots) := fun k hk =>
    afterPush_slot_of_ne hi.storage.1 (tail_ne_usedSlot hi (List.mem_range.mp hk)).symm
  rw [queue_eq_map_slot, queue_eq_map_slot, count_afterPush hi hf, List.range_succ, List.map_append]
  change List.map (fun k => (afterPush b s).slot ((s.head + k) % s.cfg.slots)) _ ++
    [(afterPush b s).slot ((s.head + s.count) % s.cfg.slots)] = _
  rw [List.map_congr_left hkept, head_add_count hi, afterPush_slot_tail hi.storage.1]

/-- The first used slot is `head`, and the others keep their order. -/
theorem queue_afterPop (hi : s.Inv) (he : s.seesEmpty = false) : s.queue = s.slot s.head :: (afterPop s).queue := by
  have hslot : ∀ k, (s.head + (k + 1)) % s.cfg.slots = ((afterPop s).head + k) % s.cfg.slots := fun k => by
    change _ = (inc s.cfg.slots s.head + k) % s.cfg.slots
    rw [inc_eq, Nat.mod_add_mod, Nat.add_right_comm, Nat.add_assoc]
  rw [queue_eq_map_slot, queue_eq_map_slot, count_afterPop hi he, List.range_succ_eq_map, List.map_cons, List.map_map,
    Nat.add_zero, Nat.mod_eq_of_lt hi.index_lt.1]
  exact congrArg _ (List.map_congr_left fun k _ => congrArg s.slot (hslot k))

@[simp] theorem syncView_queue (pt : Port) (s : State) : (syncView pt s).queue = s.queue := by
  obtain h | ⟨-, -, -, h⟩ | ⟨-, -, -, h⟩ := syncView_cases pt s <;> rw [h] <;> rfl

end Sys2Proof.Machine
end

section
/-! Every step keeps the invariant (10_state.md R34, 20_memory.md R48), one kind of answer at a time. -/

namespace Sys2Proof.Machine

variable {s t : State} {b : Byte} {e : Event}

@[simp] theorem totalPushes_synced (pt : Port) (h : List Event) : totalPushes (.synced pt :: h) = totalPushes h := by
  rw [totalPushes, pushedBytes_synced, totalPushes]

@[simp] theorem totalPops_synced (pt : Port) (h : List Event) : totalPops (.synced pt :: h) = totalPops h := by
  rw [totalPops, poppedBytes_synced, totalPops]

@[simp] theorem totalPushes_reset (h : List Event) : totalPushes (.reset :: h) = 0 := rfl

@[simp] theorem totalPops_reset (h : List Event) : totalPops (.reset :: h) = 0 := rfl

/-- An event that neither accepts nor returns a byte. -/
def Event.Quiet (e : Event) : Prop := acceptedByte e = none ∧ returnedByte e = none

theorem quiet_of_status {pt : Port} {cmd : Word} {st : Status} {val : Byte} (hs : st ≠ .ok) :
    Event.Quiet (.answered pt cmd (responseWord st val)) :=
  ⟨acceptedByte_of_status hs, returnedByte_of_status hs⟩

theorem quiet_of_decode_isempty {pt : Port} {cmd rsp : Word} (hd : decode cmd = .ok .isempty) :
    Event.Quiet (.answered pt cmd rsp) :=
  ⟨acceptedByte_of_decode (by simp [hd]), returnedByte_of_decode (by simp [hd])⟩

/-- The bytes pushed and popped after one more answer, by what the answer accepts and returns. -/
theorem bytes_answered {pt : Port} {cmd rsp : Word} {h : List Event} (hq : Event.Quiet (.answered pt cmd rsp)) :
    pushedBytes (.answered pt cmd rsp :: h) = pushedBytes h ∧ poppedBytes (.answered pt cmd rsp :: h) = poppedBytes h := by
  rw [pushedBytes_answered, poppedBytes_answered, hq.1, hq.2]
  simp

theorem bytes_answered_push {cmd : Word} {val : Byte} {h : List Event} (hd : decode cmd = .ok (.push b)) :
    pushedBytes (.answered .p cmd (responseWord .ok val) :: h) = pushedBytes h ++ [b] ∧
    poppedBytes (.answered .p cmd (responseWord .ok val) :: h) = poppedBytes h := by
  rw [pushedBytes_answered, poppedBytes_answered, acceptedByte_push hd, returnedByte_of_decode (by simp [hd])]
  simp

theorem bytes_answered_pop {cmd : Word} {h : List Event} (hd : decode cmd = .ok .pop) :
    pushedBytes (.answered .q cmd (responseWord .ok b) :: h) = pushedBytes h ∧
    poppedBytes (.answered .q cmd (responseWord .ok b) :: h) = poppedBytes h ++ [b] := by
  rw [pushedBytes_answered, poppedBytes_answered, returnedByte_pop hd, acceptedByte_of_decode (by simp [hd])]
  simp

theorem inv_respond {st : Status} {val : Byte} (hi : s.Inv)
    (hq : Event.Quiet (.answered s.port s.cmd (responseWord st val))) : (respond st val s).Inv := by
  obtain ⟨hpush, hpop⟩ := bytes_answered (h := s.history) hq
  obtain ⟨hleg, hmem, hix, hv, hfifo⟩ := hi
  simp only [State.Inv, State.IndexInv, State.ViewInv, State.FifoLaw, totalPushes, totalPops, respond_history,
    respond_queue, hpush, hpop, popsAtSync_answered, pushesAtSync_answered]
  exact ⟨hleg, hmem, hix, hv, hfifo⟩

theorem inv_raiseFault {k : FaultKind} (hi : s.Inv) : (raiseFault k s).Inv :=
  inv_respond (s := { s with faults := s.faults ++ [{ kind := k, port := s.port, cmd := s.cmd }] }) hi
    (quiet_of_status (by cases k <;> simp [FaultKind.status]))

/-- The record and the totals after an accepted PUSH: `T` is one more (R34). -/
theorem totals_afterPush (hp : s.port = .p) (hd : decode s.cmd = .ok (.push b)) :
    pushedBytes (afterPush b s).history = pushedBytes s.history ++ [b] ∧
    poppedBytes (afterPush b s).history = poppedBytes s.history ∧
    totalPushes (afterPush b s).history = totalPushes s.history + 1 ∧
    totalPops (afterPush b s).history = totalPops s.history := by
  obtain ⟨hpush, hpop⟩ := bytes_answered_push (val := 0x00#8) (h := s.history) hd
  rw [← hp] at hpush hpop
  exact ⟨hpush, hpop, (congrArg List.length hpush).trans List.length_append, congrArg List.length hpop⟩

/-- The record and the totals after a POP that returns a byte: `H` is one more (R34). -/
theorem totals_afterPop (hp : s.port = .q) (hd : decode s.cmd = .ok .pop) :
    pushedBytes (afterPop s).history = pushedBytes s.history ∧
    poppedBytes (afterPop s).history = poppedBytes s.history ++ [s.slot s.head] ∧
    totalPushes (afterPop s).history = totalPushes s.history ∧
    totalPops (afterPop s).history = totalPops s.history + 1 := by
  obtain ⟨hpush, hpop⟩ := bytes_answered_pop (b := s.slot s.head) (h := s.history) hd
  rw [← hp] at hpush hpop
  exact ⟨hpush, hpop, congrArg List.length hpush, (congrArg List.length hpop).trans List.length_append⟩

theorem storageInv_afterPush (hi : s.Inv) : (afterPush b s).StorageInv := by
  refine ⟨Memory.write_wf _ _ hi.storage.1, fun c hc => ?_⟩
  obtain rfl | hc := Memory.mem_write hc
  · exact hi.index_lt.2
  · exact hi.storage.2 c hc

theorem inv_afterPush (hi : s.Inv) (hp : s.port = .p) (hd : decode s.cmd = .ok (.push b)) (hf : s.seesFull = false) :
    (afterPush b s).Inv := by
  obtain ⟨hpush, hpop, hT, hH⟩ := totals_afterPush hp hd
  obtain ⟨hc, hHV, hHTV, hTV, hTHV⟩ := hi.bounds
  rw [seesFull_eq_false_iff_totals hi] at hf
  refine ⟨hi.legal, storageInv_afterPush hi, ⟨?_, ?_, ?_, ?_⟩, fun hl => ?_, ?_⟩
  · rw [hH, afterPush_head, afterPush_cfg, modC_natCast, hi.totals.head]
  · change inc s.cfg.slots s.tail = modC s.cfg.slots _
    rw [hT, modC_natCast, hi.totals.tail, inc_mod]
  · omega
  · rw [afterPush_cfg]
    omega
  · obtain ⟨hhv, htv, hHV', hTHV', hHTV', hTV'⟩ := hi.views hl
    rw [seenPops_of_lagged (s := s) hl] at hf
    refine ⟨by simpa using hhv, by simpa using htv, ?_⟩
    rw [hT, hH, popsAtSync_afterPush, pushesAtSync_afterPush, afterPush_cfg]
    omega
  · rw [State.FifoLaw, hpush, hpop, queue_afterPush hi ((seesFull_eq_false_iff_totals hi).mpr hf), hi.fifo,
      List.append_assoc]

theorem inv_afterPop (hi : s.Inv) (hp : s.port = .q) (hd : decode s.cmd = .ok .pop) (he : s.seesEmpty = false) :
    (afterPop s).Inv := by
  obtain ⟨hpush, hpop, hT, hH⟩ := totals_afterPop hp hd
  obtain ⟨hc, hHV, hHTV, hTV, hTHV⟩ := hi.bounds
  rw [seesEmpty_eq_false_iff_totals hi] at he
  refine ⟨hi.legal, hi.storage, ⟨?_, ?_, ?_, ?_⟩, fun hl => ?_, ?_⟩
  · change inc s.cfg.slots s.head = modC s.cfg.slots _
    rw [hH, modC_natCast, hi.totals.head, inc_mod]
  · rw [hT, afterPop_tail, afterPop_cfg, modC_natCast, hi.totals.tail]
  · omega
  · rw [afterPop_cfg]
    omega
  · obtain ⟨hhv, htv, hHV', hTHV', hHTV', hTV'⟩ := hi.views hl
    rw [seenPushes_of_lagged (s := s) hl] at he
    refine ⟨by simpa using hhv, by simpa using htv, ?_⟩
    rw [hT, hH, popsAtSync_afterPop, pushesAtSync_afterPop, afterPop_cfg]
    omega
  · rw [State.FifoLaw, hpush, hpop, hi.fifo, queue_afterPop hi ((seesEmpty_eq_false_iff_totals hi).mpr he),
      List.append_assoc, List.singleton_append]

theorem inv_syncView (pt : Port) (hi : s.Inv) : (syncView pt s).Inv := by
  obtain ⟨hc, hHV, hHTV, hTV, hTHV⟩ := hi.bounds
  obtain h | ⟨-, -, -, h⟩ | ⟨-, -, -, h⟩ := syncView_cases pt s
  · rwa [h]
  · rw [h]
    refine ⟨hi.legal, hi.storage, ?_, fun hl => ?_, ?_⟩
    · simpa only [State.IndexInv, totalPushes_synced, totalPops_synced] using hi.index
    · obtain ⟨hhv, htv, hHV', hTHV', hHTV', hTV'⟩ := hi.views hl
      refine ⟨by simpa using hi.totals.head, by simpa using htv, ?_⟩
      simp only [totalPushes_synced, totalPops_synced, popsAtSync_synced_p, pushesAtSync_synced_p]
      omega
    · rw [State.FifoLaw, pushedBytes_synced, poppedBytes_synced]
      exact hi.fifo
  · rw [h]
    refine ⟨hi.legal, hi.storage, ?_, fun hl => ?_, ?_⟩
    · simpa only [State.IndexInv, totalPushes_synced, totalPops_synced] using hi.index
    · obtain ⟨hhv, htv, hHV', hTHV', hHTV', hTV'⟩ := hi.views hl
      refine ⟨by simpa using hhv, by simpa using hi.totals.tail, ?_⟩
      simp only [totalPushes_synced, totalPops_synced, popsAtSync_synced_q, pushesAtSync_synced_q]
      omega
    · rw [State.FifoLaw, pushedBytes_synced, poppedBytes_synced]
      exact hi.fifo

theorem inv_resetEvent (hl : s.cfg.wellFormed = true) (hs : s.StorageInv) : (resetEvent s).Inv := by
  refine ⟨hl, hs, ?_, fun _ => ?_, ?_⟩
  · simp [State.IndexInv]
  · simp
  · simp [State.FifoLaw]

/-- The invariant does not speak of the transaction, the issue lists and the schedule. -/
theorem inv_present (pt : Port) (w : Word) (hi : s.Inv) : (present pt w s).Inv := hi

theorem move_keeps_inv {m : Move} (hi : s.Inv) (h : move m s = .next t) : t.Inv := by
  cases m with
  | sync pt => cases h; exact inv_syncView pt hi
  | reset => cases h; exact inv_resetEvent hi.legal hi.storage
  | command pt w =>
    have hi := inv_present pt w hi
    obtain ⟨-, rfl⟩ | ⟨i, -, -, rfl⟩ | ⟨b, -, -, -, rfl⟩ | ⟨b, hd, rfl, hf, rfl⟩ | ⟨-, -, -, rfl⟩ |
      ⟨hd, rfl, he, rfl⟩ | ⟨hd, -, rfl⟩ := move_command_next h
    · exact inv_raiseFault hi
    · exact inv_raiseFault hi
    · exact inv_respond hi (quiet_of_status (by simp))
    · exact inv_afterPush hi rfl hd (seesFull_eq_false_iff.mpr hf)
    · exact inv_respond hi (quiet_of_status (by simp))
    · exact inv_afterPop hi rfl hd (seesEmpty_eq_false_iff.mpr he)
    · exact inv_respond hi (quiet_of_decode_isempty hd)

theorem turn_keeps_inv {a : Agent} (hi : s.Inv) (h : turn a s = .next t) : t.Inv := by
  obtain ⟨rfl, -⟩ | ⟨w, ws, -, -, h⟩ | ⟨w, ws, -, -, h⟩ | ⟨-, h⟩ | ⟨-, h⟩ | ⟨-, h⟩ := turn_next h
  · exact hi
  · exact move_keeps_inv (s := { s with issueP := ws }) hi h
  · exact move_keeps_inv (s := { s with issueQ := ws }) hi h
  · exact move_keeps_inv hi h
  · exact move_keeps_inv hi h
  · exact move_keeps_inv hi h

/-- Settles O30: a step holds the state or takes a turn, a turn is an atomic step, and each of its outcomes keeps the
totals and the stored bytes in the form of the invariant. -/
theorem stepKeepsInvariant : Obligations.StepKeepsInvariant := by
  intro s t hi h
  obtain ⟨-, ⟨-, rfl⟩ | ⟨a, rest, -, h⟩⟩ := step_next h
  · exact hi
  · exact turn_keeps_inv (s := { s with schedule := rest }) hi h

/-- Settles O27: after the reset event all totals are 0 and nothing is stored. -/
theorem resetEventEstablishesInvariant : Obligations.ResetEventEstablishesInvariant := by
  intro s t hl hs h
  cases h
  exact inv_resetEvent hl hs

/-- The initial state is the state after a reset (70_reset_and_hazards.md R131), but for the record. -/
theorem inv_boot {cfg : Config} {mem : Memory} {ip iq : List Word} {sch : List Agent} (hl : cfg.wellFormed = true)
    (hs : (State.boot cfg mem ip iq sch).StorageInv) : (State.boot cfg mem ip iq sch).Inv := by
  refine ⟨hl, hs, ?_, fun _ => ?_, ?_⟩
  · simp [State.IndexInv, totalPushes, totalPops]
  · simp [totalPushes, totalPops]
  · simpa [State.FifoLaw] using (queue_of_head_eq_tail rfl).symm

/-- Settles O29: with no event recorded all totals are 0. -/
theorem initialStateMeetsInvariant : Obligations.InitialStateMeetsInvariant :=
  ⟨fun _ _ _ _ _ hl hs => inv_boot hl hs, inv_boot rfl ⟨Memory.nil_wf, by simp⟩⟩

/-- Settles O28: the fields are those of `State.boot`, and the derived conditions compare equal indices. -/
theorem initialStateHasResetValues : Obligations.InitialStateHasResetValues := by
  refine ⟨fun cfg mem ip iq sch => ?_, rfl⟩
  have hcount : (State.boot cfg mem ip iq sch).count = 0 := modC_zero cfg.slots
  have hviews : (State.boot cfg mem ip iq sch).hv = 0 ∧ (State.boot cfg mem ip iq sch).tv = 0 := by
    cases hv : cfg.view <;> simp [State.hv, State.tv, hv]
  refine ⟨rfl, rfl, hviews.1, hviews.2, rfl, hcount, by simp [State.empty, hcount], fun hl => ?_⟩
  have := Config.two_le hl
  simp only [State.full, hcount, boot_cfg, decide_eq_false_iff_not]
  omega

theorem exists_move_eq_next {m : Move} (hi : s.Inv) : ∃ t, move m s = .next t := by
  cases m with
  | command pt w => exact exists_move_command_eq_next hi.legal hi.index_lt.1 hi.index_lt.2
  | sync pt => exact ⟨_, rfl⟩
  | reset => exact ⟨_, rfl⟩

theorem exists_turn_eq_next {a : Agent} (hi : s.Inv) : ∃ t, turn a s = .next t := by
  cases a with
  | p =>
    cases hq : s.issueP with
    | nil => exact ⟨s, by simp [turn, hq]⟩
    | cons w ws => simpa [turn, hq] using exists_move_eq_next (s := { s with issueP := ws }) hi
  | q =>
    cases hq : s.issueQ with
    | nil => exact ⟨s, by simp [turn, hq]⟩
    | cons w ws => simpa [turn, hq] using exists_move_eq_next (s := { s with issueQ := ws }) hi
  | syncP => exact exists_move_eq_next (m := .sync .p) hi
  | syncQ => exact exists_move_eq_next (m := .sync .q) hi
  | rst => exact exists_move_eq_next (m := .reset) hi

/-- Settles O31: the indices are slots, so the turn's command stops for no reason (O10). -/
theorem stepAlwaysCompletes : Obligations.StepAlwaysCompletes := by
  intro s hi
  rw [step, guarded_of_legal hi.legal, nextTurn]
  split
  · exact ⟨s, rfl⟩
  · rename_i a rest _
    exact exists_turn_eq_next (s := { s with schedule := rest }) hi

/-- Every run from a state that meets the invariant reaches such states only. -/
theorem run_reaches_inv (n : Nat) (hi : s.Inv) : ∃ t, core.run n s = .next t ∧ t.Inv := by
  induction n generalizing s with
  | zero => exact ⟨s, core_run_zero s, hi⟩
  | succ n ih =>
    obtain ⟨u, hu⟩ := stepAlwaysCompletes s hi
    obtain ⟨t, ht, hinv⟩ := ih (stepKeepsInvariant s u hi hu)
    exact ⟨t, (core_run_next hu).trans ht, hinv⟩

@[simp] theorem lastResponse_respond (st : Status) (val : Byte) (s : State) :
    (respond st val s).lastResponse = some (responseWord st val) := rfl

@[simp] theorem lastResponse_raiseFault (k : FaultKind) (s : State) :
    (raiseFault k s).lastResponse = some (responseWord k.status 0x00#8) := rfl

@[simp] theorem lastResponse_afterPush (b : Byte) (s : State) : (afterPush b s).lastResponse = some 0x0000#16 := rfl

@[simp] theorem lastResponse_afterPop (s : State) :
    (afterPop s).lastResponse = some (responseWord .ok (s.slot s.head)) := rfl

theorem responseWord_inj {a b : Status} {v w : Byte} : responseWord a v = responseWord b w ↔ a = b ∧ v = w := by
  rw [word_eq_iff]
  simp only [highByte_responseWord, lowByte_responseWord]
  exact and_congr_left' ⟨Status.code_injective, congrArg _⟩

theorem responseWord_ok_zero : responseWord .ok 0x00#8 = 0x0000#16 := rfl

theorem responseWord_overflow : responseWord .overflow 0x00#8 = 0x0200#16 := rfl

theorem responseWord_empty : responseWord .empty 0x00#8 = 0x0100#16 := rfl

/-- An OVERFLOW is answered to a PUSH on P seen full, and to no other command (30_encoding.md R65). -/
theorem move_command_of_overflow {pt : Port} {w : Word} (h : move (.command pt w) s = .next t)
    (hr : t.lastResponse = some 0x0200#16) : t = respond .overflow 0x00#8 (present pt w s) := by
  rw [← responseWord_overflow] at hr
  obtain ⟨-, rfl⟩ | ⟨i, -, -, rfl⟩ | ⟨b, -, -, -, ht⟩ | ⟨b, -, -, -, rfl⟩ | ⟨-, -, -, rfl⟩ | ⟨-, -, -, rfl⟩ |
    ⟨-, -, rfl⟩ := move_command_next h
  -- the PUSH seen full
  case inr.inr.inl => exact ht
  all_goals simp [responseWord_inj, ← responseWord_ok_zero, FaultKind.status] at hr

/-- An EMPTY is answered to a POP on Q seen empty, and to no other command (30_encoding.md R65). -/
theorem move_command_of_empty {pt : Port} {w : Word} (h : move (.command pt w) s = .next t)
    (hr : t.lastResponse = some 0x0100#16) : t = respond .empty 0x00#8 (present pt w s) := by
  rw [← responseWord_empty] at hr
  obtain ⟨-, rfl⟩ | ⟨i, -, -, rfl⟩ | ⟨b, -, -, -, rfl⟩ | ⟨b, -, -, -, rfl⟩ | ⟨-, -, -, ht⟩ | ⟨-, -, -, rfl⟩ |
    ⟨-, -, rfl⟩ := move_command_next h
  -- the POP seen empty
  case inr.inr.inr.inr.inl => exact ht
  all_goals simp [responseWord_inj, ← responseWord_ok_zero, FaultKind.status] at hr

/-- Settles O32: the run reaches a state that meets the invariant, which holds the FIFO law, and an OVERFLOW or an
EMPTY adds an event that accepts and returns no byte. -/
theorem fifoLawOnEveryRun : Obligations.FifoLawOnEveryRun := by
  intro cfg mem ip iq sch n hl hs
  obtain ⟨s, hrun, hi⟩ := run_reaches_inv n (inv_boot hl hs)
  refine ⟨s, hrun, ⟨s.queue, hi.fifo.symm⟩, hi.fifo, fun pt w t h => ⟨fun hr => ?_, fun hr => ?_⟩⟩
  · rw [move_command_of_overflow h hr]
    exact ⟨(bytes_answered (quiet_of_status (by simp))).1, rfl⟩
  · rw [move_command_of_empty h hr]
    exact (bytes_answered (quiet_of_status (by simp))).2

end Sys2Proof.Machine
end

section
/-! The encoder and the decoder as inverses, and the words counted by the bytes they are made of (30_encoding.md R61 to
R63, R67). -/

namespace Sys2Proof

variable {w : Word} {i : Instr}

theorem decode_eq_ok_iff_encode : decode w = .ok i ↔ encode i = w := by
  rw [decode_eq_ok_iff, eq_comm (a := encode i), word_eq_iff, encode, highByte_wordOf, lowByte_wordOf]

@[simp] theorem decode_encode (i : Instr) : decode (encode i) = .ok i := decode_eq_ok_iff_encode.mpr rfl

@[simp] theorem tableWord_toNat (w : Word) : tableWord 16 w.toNat = w := by
  rw [tableWord, Nat.mod_eq_of_lt w.isLt, BitVec.ofNat_toNat, BitVec.setWidth_eq]

/-- Settles O2: the word of a command holds its OP and ARG, which are all that the decoder reads; a row of 16 bits is
that word. -/
theorem encodedCommandsDecodeBack : Obligations.EncodedCommandsDecodeBack := by
  intro i _
  refine ⟨decode_encode i, ?_⟩
  rw [decodeTableWord, if_pos le_rfl, tableWord_toNat, decode_encode]
  rfl

theorem isReserved_eq_false_iff : isReserved w = false ↔ ∃ i, decode w = .ok i := by
  unfold isReserved
  cases decode w <;> simp

theorem isReserved_eq_true_iff : isReserved w = true ↔ ∀ i, encode i ≠ w := by
  rw [← Bool.not_eq_false, isReserved_eq_false_iff, not_exists]
  exact forall_congr' fun i => decode_eq_ok_iff_encode.not

/-- Settles O3: the decoder answers a command exactly when the word is that command's. -/
theorem decodedWordsHaveOneEncoding : Obligations.DecodedWordsHaveOneEncoding := fun _ =>
  ⟨fun _ => decode_eq_ok_iff_encode.mp, isReserved_eq_true_iff⟩

/-- Settles O1: each word is the encoding of its command, or has an OP or ARG that R67 reserves. -/
theorem specWordsDecode : Obligations.SpecWordsDecode := by
  unfold Obligations.SpecWordsDecode
  decide

/-! ### Counting words -/

/-- The numbers from `m` up to 255, as bytes. -/
def bytesFrom (m : Nat) : List Byte := (List.range' m (256 - m)).map (BitVec.ofNat 8)

/-- The words whose OP and ARG come from the two lists. -/
def wordsWith (ops args : List Byte) : List Word := (ops ×ˢ args).map fun p => wordOf p.1 p.2

theorem mem_bytesFrom {m : Nat} {b : Byte} : b ∈ bytesFrom m ↔ m ≤ b.toNat := by
  simp only [bytesFrom, List.mem_map, List.mem_range'_1]
  constructor
  · rintro ⟨k, hk, rfl⟩
    rw [BitVec.toNat_ofNat, Nat.mod_eq_of_lt (by omega)]
    exact hk.1
  · intro hb
    exact ⟨b.toNat, ⟨hb, by have := b.isLt; omega⟩, by simp⟩

theorem bytesFrom_nodup (m : Nat) : (bytesFrom m).Nodup := by
  refine List.Nodup.map_on (fun a ha b hb hab => ?_) List.nodup_range'
  rw [List.mem_range'_1] at ha hb
  have := congrArg BitVec.toNat hab
  simp only [BitVec.toNat_ofNat] at this
  omega

theorem mem_wordsWith {ops args : List Byte} : w ∈ wordsWith ops args ↔ highByte w ∈ ops ∧ lowByte w ∈ args := by
  simp only [wordsWith, List.mem_map, List.mem_product, Prod.exists]
  constructor
  · rintro ⟨hi, lo, h, rfl⟩
    simpa using h
  · exact fun h => ⟨_, _, h, wordOf_bytes w⟩

theorem wordsWith_nodup {ops args : List Byte} (ho : ops.Nodup) (ha : args.Nodup) : (wordsWith ops args).Nodup := by
  refine (ho.product ha).map fun p q h => ?_
  rw [word_eq_iff] at h
  simpa [Prod.ext_iff] using h

@[simp] theorem length_wordsWith (ops args : List Byte) : (wordsWith ops args).length = ops.length * args.length := by
  rw [wordsWith, List.length_map, List.length_product]

@[simp] theorem length_bytesFrom (m : Nat) : (bytesFrom m).length = 256 - m := by simp [bytesFrom]

/-- The words of PUSH, POP and ISEMPTY (R62, R63). -/
def definedWords : List Word := wordsWith [0x01#8] (bytesFrom 0) ++ wordsWith [0x02#8, 0x03#8] [0x00#8]

/-- The words reserved by their ARG (R67). -/
def wordsReservedByArg : List Word := wordsWith [0x02#8, 0x03#8] (bytesFrom 1)

/-- The words reserved by their OP (R67). -/
def wordsReservedByOp : List Word := wordsWith (0x00#8 :: bytesFrom 4) (bytesFrom 0)

theorem mem_definedWords : w ∈ definedWords ↔ isReserved w = false := by
  have hcommand : (∃ i, decode w = .ok i) ↔
      (∃ b, decode w = .ok (.push b)) ∨ decode w = .ok .pop ∨ decode w = .ok .isempty := by
    refine ⟨?_, ?_⟩
    · rintro ⟨_ | _ | _, h⟩ <;> simp [h]
    · rintro (⟨b, h⟩ | h | h) <;> exact ⟨_, h⟩
  rw [isReserved_eq_false_iff, hcommand]
  simp [definedWords, mem_wordsWith, mem_bytesFrom, decode_eq_ok_iff, Instr.op, Instr.arg, or_and_right]

theorem mem_wordsReservedByArg :
    w ∈ wordsReservedByArg ↔ (highByte w = 0x02#8 ∨ highByte w = 0x03#8) ∧ lowByte w ≠ 0x00#8 := by
  simp [wordsReservedByArg, mem_wordsWith, mem_bytesFrom, Nat.one_le_iff_ne_zero, BitVec.toNat_eq]

theorem mem_wordsReservedByOp : w ∈ wordsReservedByOp ↔ highByte w = 0x00#8 ∨ 0x04#8 ≤ highByte w := by
  simp [wordsReservedByOp, mem_wordsWith, mem_bytesFrom, BitVec.le_def]

theorem definedWords_nodup : definedWords.Nodup := by
  refine (wordsWith_nodup (by simp) (bytesFrom_nodup 0)).append (wordsWith_nodup (by decide) (by simp)) fun v hpush hq => ?_
  simp only [mem_wordsWith, List.mem_cons, List.not_mem_nil, or_false] at hpush hq
  simp [hpush.1] at hq

theorem wordsReservedByOp_nodup : wordsReservedByOp.Nodup := by
  refine wordsWith_nodup (List.nodup_cons.mpr ⟨?_, bytesFrom_nodup 4⟩) (bytesFrom_nodup 0)
  simp [mem_bytesFrom]

/-- A word with a nonzero ARG where there must be none is no command's. -/
theorem definedWords_disjoint_byArg : definedWords.Disjoint wordsReservedByArg := fun v hdef harg => by
  obtain ⟨i, hi⟩ := isReserved_eq_false_iff.mp (mem_definedWords.mp hdef)
  obtain ⟨hop, hlow⟩ := decode_eq_ok_iff.mp hi
  rw [mem_wordsReservedByArg, hop, hlow] at harg
  cases i <;> simp [Instr.op, Instr.arg] at harg

theorem disjoint_byOp : (definedWords ++ wordsReservedByArg).Disjoint wordsReservedByOp := fun v hv hop => by
  have hhigh : highByte v = 0x01#8 ∨ highByte v = 0x02#8 ∨ highByte v = 0x03#8 := by
    obtain hdef | harg := List.mem_append.mp hv
    · obtain ⟨i, hi⟩ := isReserved_eq_false_iff.mp (mem_definedWords.mp hdef)
      rw [(decode_eq_ok_iff.mp hi).1]
      cases i <;> simp [Instr.op]
    · exact .inr (mem_wordsReservedByArg.mp harg).1
  rw [mem_wordsReservedByOp] at hop
  obtain h | h | h := hhigh <;> simp [h] at hop

/-- Settles O5: each list is a product of bytes for OP and bytes for ARG, so it has as many words as the product of
their numbers; every word stands in the list that the decoder's answer names. -/
theorem reservedWordsAreCounted : Obligations.ReservedWordsAreCounted := by
  refine ⟨definedWords, wordsReservedByArg, wordsReservedByOp, ?_, fun w => ?_, ?_, ?_, ?_, fun _ => mem_definedWords,
    fun _ => mem_wordsReservedByArg, fun _ => mem_wordsReservedByOp⟩
  · have harg : wordsReservedByArg.Nodup := wordsWith_nodup (by decide) (bytesFrom_nodup 1)
    exact (definedWords_nodup.append harg definedWords_disjoint_byArg).append wordsReservedByOp_nodup disjoint_byOp
  · rw [List.mem_append, List.mem_append, mem_definedWords, isReserved_eq_false_iff, mem_wordsReservedByArg,
      mem_wordsReservedByOp]
    obtain ⟨b, hd, -⟩ | ⟨hd, -⟩ | ⟨hd, -⟩ | ⟨-, harg⟩ | ⟨-, h1, h2, h3⟩ := decode_cases w
    · exact .inl (.inl ⟨_, hd⟩)
    · exact .inl (.inl ⟨_, hd⟩)
    · exact .inl (.inl ⟨_, hd⟩)
    · exact .inl (.inr harg)
    · right
      bv_omega
  all_goals simp [definedWords, wordsReservedByArg, wordsReservedByOp]

end Sys2Proof
end

section
/-! A step as the turn of the agent that the schedule names (20_memory.md R45, R47), and its refusal of a configuration
that is not legal (00_scope.md R5). -/

namespace Sys2Proof.Machine

variable {s : State} {w : Word} {ws : List Word} {a : Agent} {rest : List Agent}

theorem step_of_scheduled (hl : s.cfg.wellFormed = true) (hs : s.schedule = a :: rest) :
    step s = turn a { s with schedule := rest } := by
  rw [step, guarded_of_legal hl, nextTurn, hs]

theorem turn_p_of_issued (h : s.issueP = w :: ws) : turn .p s = move (.command .p w) { s with issueP := ws } := by
  simp only [turn, h]

theorem turn_q_of_issued (h : s.issueQ = w :: ws) : turn .q s = move (.command .q w) { s with issueQ := ws } := by
  simp only [turn, h]

/-- Settles O6: the scheduled agent's turn presents its next word, and a word that decodes is dispatched to `exec`. -/
theorem stepRunsDecodedCommand : Obligations.StepRunsDecodedCommand := by
  intro s i w ws rest hl hd
  refine ⟨fun hs hp => ?_, fun hs hq => ?_⟩
  · rw [step_of_scheduled hl hs, turn_p_of_issued (s := { s with schedule := rest }) hp]
    exact move_command_of_ok hd
  · rw [step_of_scheduled hl hs, turn_q_of_issued (s := { s with schedule := rest }) hq]
    exact move_command_of_ok hd

theorem issuePort_encode (i : Instr) : issuePort (encode i) = i.port := by
  rw [issuePort, decode_encode]

/-- Settles O7: the word placed heads its own port's list and that port's agent heads the schedule, so O6 applies. -/
theorem placedWordRunsNext : Obligations.PlacedWordRunsNext := by
  intro s i hl
  rw [State.withFetchWord, tableWord_toNat, issueNext, issuePort_encode]
  cases hp : i.port with
  | p =>
    exact (stepRunsDecodedCommand { s with issueP := encode i :: s.issueP, schedule := .p :: s.schedule } i _ _ _ hl
      (decode_encode i)).1 rfl rfl
  | q =>
    exact (stepRunsDecodedCommand { s with issueQ := encode i :: s.issueQ, schedule := .q :: s.schedule } i _ _ _ hl
      (decode_encode i)).2 rfl rfl

theorem Config.wellFormed_eq_false_iff {c : Config} : c.wellFormed = false ↔ c.slots < 2 := by
  simp [Config.wellFormed]

/-- Settles O21: the refusal stands before the turn. -/
theorem smallCapacityIsRefused : Obligations.SmallCapacityIsRefused := fun _ hc =>
  guarded_of_not_legal (Config.wellFormed_eq_false_iff.mpr hc)

end Sys2Proof.Machine
end

section
/-! What a command leaves as it was (60_exceptions.md R113, 40_producer_port.md R80, 41_consumer_port.md R90, R91), and
where it stops (60_exceptions.md R110). -/

namespace Sys2Proof.Machine

variable {s t : State} {i : Instr} {b : Byte}

/-- Settles O16: on the wrong port and when seen full PUSH leaves the block, and when accepted it writes slot `tail`. -/
theorem pushFrame : Obligations.PushFrame := by
  intro s t b hm h
  obtain ⟨-, ⟨hp, rfl⟩ | ⟨-, ⟨_, -, -, rfl⟩ | ⟨_, hb, -, -, rfl⟩ | ⟨hi, -⟩ | ⟨hi, -⟩ | ⟨hi, -⟩⟩⟩ := exec_next h
  · exact ⟨rfl, rfl, rfl, sameSetting_raiseFault _, fun _ _ => rfl, fun hport => absurd hport hp,
      fun _ => ⟨rfl, fun _ => rfl⟩⟩
  · exact ⟨rfl, rfl, rfl, sameSetting_respond _ _, fun _ _ => rfl, fun _ => rfl, fun _ => ⟨rfl, fun _ => rfl⟩⟩
  · cases hb
    exact ⟨rfl, rfl, rfl, sameSetting_afterPush, fun j hj => afterPush_slot_of_ne hm hj, fun _ => rfl,
      fun hr => absurd rfl hr⟩
  all_goals cases hi

/-- Settles O17: of the four outcomes only the POP of a byte writes the block, and it writes `head`. -/
theorem consumerFrame : Obligations.ConsumerFrame := by
  intro s t i hi h
  obtain ⟨-, ⟨hp, rfl⟩ | ⟨hp, ⟨_, rfl, -⟩ | ⟨_, rfl, -⟩ | ⟨rfl, -, rfl⟩ | ⟨rfl, he, -, rfl⟩ | ⟨rfl, rfl⟩⟩⟩ := exec_next h
  · have hq : i.port = .q := by obtain rfl | rfl := hi <;> rfl
    exact ⟨rfl, rfl, rfl, sameSetting_raiseFault _, fun _ => rfl, fun hport => absurd (hport.trans hq.symm) hp, .inl rfl⟩
  · simp at hi
  · simp at hi
  · exact ⟨rfl, rfl, rfl, sameSetting_respond _ _, fun _ => rfl, fun _ => rfl, .inl rfl⟩
  · exact ⟨rfl, rfl, rfl, sameSetting_afterPop, fun _ => rfl, fun _ => rfl,
      .inr ⟨rfl, hp, seesEmpty_eq_false_iff.mp he, rfl⟩⟩
  · exact ⟨rfl, rfl, rfl, sameSetting_respond _ _, fun _ => rfl, fun _ => rfl, .inl rfl⟩

theorem exec_of_not_legal (hl : s.cfg.wellFormed = false) : exec i s = .refused .capacityBelowTwo := by
  cases i <;> exact guarded_of_not_legal hl

theorem readSlot_of_le {j : Nat} (h : s.cfg.slots ≤ j) : readSlot s j = .error (.noSuchSlot j) :=
  if_neg (Nat.not_lt.mpr h)

theorem writeSlot_of_le {j : Nat} (h : s.cfg.slots ≤ j) : writeSlot s j b = .error (.noSuchSlot j) :=
  if_neg (Nat.not_lt.mpr h)

/-- The command is on its own port, sees no reason to answer without a slot, and its slot lies outside storage
(log 7). -/
def ReachesNoSlot (i : Instr) (s : State) : Prop :=
  s.port = i.port ∧
    (((∃ b, i = .push b) ∧ s.seesFull = false ∧ s.cfg.slots ≤ s.tail) ∨
     (i = .pop ∧ s.seesEmpty = false ∧ s.cfg.slots ≤ s.head))

theorem exec_of_no_slot (hl : s.cfg.wellFormed = true) (h : ReachesNoSlot i s) : ∃ f, exec i s = .fault f := by
  obtain ⟨hp, ⟨⟨b, rfl⟩, hf, ht⟩ | ⟨rfl, he, hh⟩⟩ := h
  · have hp : s.port = .p := hp
    exact ⟨.noSuchSlot s.tail, by simp [exec, execPush, onPort, guarded, hl, hp, pushBody, hf, State.pushSlot,
      writeSlot_of_le ht]⟩
  · have hp : s.port = .q := hp
    exact ⟨.noSuchSlot s.head, by simp [exec, execPop, onPort, guarded, hl, hp, popBody, he, State.popSlot,
      readSlot_of_le hh]⟩

theorem exec_of_slot (hl : s.cfg.wellFormed = true) (h : ¬ReachesNoSlot i s) : ∃ t, exec i s = .next t := by
  by_cases hp : s.port = i.port
  · cases i with
    | push b =>
      cases hf : s.seesFull with
      | true => exact ⟨_, exec_push_of_full hl hp hf⟩
      | false => exact ⟨_, exec_push_of_room hl hp hf (by simpa [ReachesNoSlot, hp, hf] using h)⟩
    | pop =>
      cases he : s.seesEmpty with
      | true => exact ⟨_, exec_pop_of_empty hl hp he⟩
      | false => exact ⟨_, exec_pop_of_byte hl hp he (by simpa [ReachesNoSlot, hp, he] using h)⟩
    | isempty => exact ⟨_, exec_isempty_on_q hl hp⟩
  · exact ⟨_, exec_of_wrong_port hl hp⟩

/-- Settles O20: a configuration that is not legal is refused; in a legal one the command faults when it reaches a slot
outside storage, and else answers a next state. -/
theorem commandsStopOnlyOutsideTheSpec : Obligations.CommandsStopOnlyOutsideTheSpec := by
  intro s i
  change _ ∧ ((∃ f, exec i s = .fault f) ↔ 2 ≤ s.cfg.slots ∧ ReachesNoSlot i s)
  cases hl : s.cfg.wellFormed with
  | false =>
    have hc := Config.wellFormed_eq_false_iff.mp hl
    rw [exec_of_not_legal hl]
    simp [hc, Nat.not_le.mpr hc]
  | true =>
    have hc : 1 < s.cfg.slots := Config.two_le hl
    by_cases hslot : ReachesNoSlot i s
    · obtain ⟨f, hf⟩ := exec_of_no_slot hl hslot
      simp [hf, hc, Nat.succ_le_of_lt hc, hslot]
    · obtain ⟨t, ht⟩ := exec_of_slot hl hslot
      simp [ht, hc, hslot]

/-- Settles O18: the answers but OK leave the block, and the accepted byte goes to the end of the stored bytes. -/
theorem pushNeverLosesAcceptedBytes : Obligations.PushNeverLosesAcceptedBytes := by
  intro s t b hi h
  obtain ⟨-, ⟨-, rfl⟩ | ⟨-, ⟨_, -, -, rfl⟩ | ⟨_, hb, hf, -, rfl⟩ | ⟨hi, -⟩ | ⟨hi, -⟩ | ⟨hi, -⟩⟩⟩ := exec_next h
  · exact ⟨.inl rfl, fun _ => ⟨rfl, sameBlock_raiseFault _⟩⟩
  · exact ⟨.inl rfl, fun _ => ⟨rfl, sameBlock_respond _ _⟩⟩
  · cases hb
    exact ⟨.inr ⟨queue_afterPush hi hf, rfl⟩, fun hr => absurd hr (by simp)⟩
  all_goals cases hi

/-- Settles O19: the POP's slot is the first used one, and ISEMPTY's answer keeps the indices and views it reads. -/
theorem popConsumesAndIsemptyRepeats : Obligations.PopConsumesAndIsemptyRepeats := by
  intro s hi hp
  refine ⟨fun t h he => ?_, ?_⟩
  · rw [exec_pop_of_byte hi.legal hp he hi.index_lt.1] at h
    cases h
    exact ⟨_, queue_afterPop hi he, rfl⟩
  · have hanswer : ∀ u : State, u.cfg = s.cfg → u.port = .q → exec .isempty u = .next _ := fun u hc hq =>
      exec_isempty_on_q (hc ▸ hi.legal) hq
    refine ⟨_, _, hanswer s rfl hp, hanswer _ rfl hp, rfl, ⟨rfl, rfl, rfl, rfl, fun _ => rfl⟩, fun hcount => ?_⟩
    have hempty : s.seesEmpty = true := seesEmpty_of_count hi hcount
    rw [lastResponse_respond, hempty]
    rfl

/-- Settles O25: OVERFLOW is PUSH's answer when it sees full, which the estimate says (O24). -/
theorem pushIsDroppedExactlyWhenSeenFull : Obligations.PushIsDroppedExactlyWhenSeenFull := by
  intro s b hi hp
  refine ⟨?_, fun hc => (estimates_of_coherent hc).1⟩
  rw [← seesFull_of_inv hi]
  cases hf : s.seesFull with
  | true => simp [exec_push_of_full hi.legal hp hf, responseWord_overflow]
  | false => simp [exec_push_of_room hi.legal hp hf hi.index_lt.2]

/-- Settles O23: `indexWidth c` is one more than the place of the highest bit of the last index. -/
theorem indexWidthIsLeast : Obligations.IndexWidthIsLeast := by
  intro c hc
  refine ⟨fun i hi => ?_, fun w hw => ?_⟩
  · exact lt_of_le_of_lt (by omega) (Nat.lt_log2_self (n := c - 1))
  · exact (Nat.log2_lt (by omega)).mpr (hw (c - 1) (by omega))

end Sys2Proof.Machine
end

section
/-! What one step writes and what it leaves: the indices, the slots, the views, the issue lists and the fault log
(10_state.md R20 to R25, 20_memory.md R47, 70_reset_and_hazards.md R142). -/

namespace Sys2Proof.Machine

variable {s t : State} {m : Move} {pt : Port} {w : Word} {a : Agent}

/-- The parts of State that no command writes. -/
theorem move_command_frame (h : move (.command pt w) s = .next t) :
    t.cfg = s.cfg ∧ t.hvLag = s.hvLag ∧ t.tvLag = s.tvLag ∧ t.issueP = s.issueP ∧ t.issueQ = s.issueQ ∧
      t.schedule = s.schedule := by
  obtain ⟨-, rfl⟩ | ⟨_, -, -, rfl⟩ | ⟨_, -, -, -, rfl⟩ | ⟨_, -, -, -, rfl⟩ | ⟨-, -, -, rfl⟩ | ⟨-, -, -, rfl⟩ |
    ⟨-, -, rfl⟩ := move_command_next h <;> exact ⟨rfl, rfl, rfl, rfl, rfl, rfl⟩

/-- The parts of State that no atomic step writes. -/
theorem move_frame (h : move m s = .next t) :
    t.cfg = s.cfg ∧ t.issueP = s.issueP ∧ t.issueQ = s.issueQ ∧ t.schedule = s.schedule := by
  cases m with
  | command pt w =>
    obtain ⟨hc, -, -, hp, hq, hs⟩ := move_command_frame h
    exact ⟨hc, hp, hq, hs⟩
  | sync pt =>
    cases h
    obtain h | ⟨-, -, -, h⟩ | ⟨-, -, -, h⟩ := syncView_cases pt s <;> rw [h] <;> exact ⟨rfl, rfl, rfl, rfl⟩
  | reset => cases h; exact ⟨rfl, rfl, rfl, rfl⟩

@[simp] theorem syncView_head (pt : Port) (s : State) : (syncView pt s).head = s.head := by
  obtain h | ⟨-, -, -, h⟩ | ⟨-, -, -, h⟩ := syncView_cases pt s <;> rw [h]

@[simp] theorem syncView_tail (pt : Port) (s : State) : (syncView pt s).tail = s.tail := by
  obtain h | ⟨-, -, -, h⟩ | ⟨-, -, -, h⟩ := syncView_cases pt s <;> rw [h]

@[simp] theorem syncView_mem (pt : Port) (s : State) : (syncView pt s).mem = s.mem := by
  obtain h | ⟨-, -, -, h⟩ | ⟨-, -, -, h⟩ := syncView_cases pt s <;> rw [h]

@[simp] theorem syncView_faults (pt : Port) (s : State) : (syncView pt s).faults = s.faults := by
  obtain h | ⟨-, -, -, h⟩ | ⟨-, -, -, h⟩ := syncView_cases pt s <;> rw [h]

@[simp] theorem syncView_slot (pt : Port) (s : State) (i : Nat) : (syncView pt s).slot i = s.slot i := by
  rw [State.slot, syncView_mem, State.slot]

theorem syncView_of_coherent (pt : Port) (hc : s.cfg.view = .coherent) : syncView pt s = s := by
  simp [syncView, syncEnabled_of_coherent pt hc]

/-- Settles O33: of the outcomes of a command only the accepted PUSH writes `tail` and only the POP of a byte `head`. -/
theorem eachIndexHasOneWriter : Obligations.EachIndexHasOneWriter := by
  intro s t m h
  cases m with
  | sync pt => cases h; simp
  | reset => simp
  | command pt w =>
    obtain ⟨-, rfl⟩ | ⟨_, -, -, rfl⟩ | ⟨_, -, -, -, rfl⟩ | ⟨b, hd, rfl, -, rfl⟩ | ⟨-, -, -, rfl⟩ | ⟨hd, rfl, -, rfl⟩ |
      ⟨-, -, rfl⟩ := move_command_next h
    -- the accepted PUSH, and the POP of a byte
    case inr.inr.inr.inl => exact ⟨fun _ => .inr ⟨w, b, rfl, hd⟩, fun hne => absurd rfl hne⟩
    case inr.inr.inr.inr.inr.inl => exact ⟨fun hne => absurd rfl hne, fun _ => .inr ⟨w, rfl, hd⟩⟩
    all_goals exact ⟨fun hne => absurd rfl hne, fun hne => absurd rfl hne⟩

/-- Settles O34: only the accepted PUSH writes storage, and a write reaches one slot. -/
theorem storageHasOneWriter : Obligations.StorageHasOneWriter := by
  intro s t m j hm h hne
  obtain ⟨_, _, _, -, -, rfl⟩ | ⟨pt, w, i, rfl, hd, he⟩ | ⟨pt, -, rfl⟩ | ⟨-, rfl⟩ := move_next h
  · exact absurd rfl hne
  · obtain ⟨-, ⟨-, rfl⟩ | ⟨hp, ⟨_, -, -, rfl⟩ | ⟨b, rfl, -, ht, rfl⟩ | ⟨-, -, rfl⟩ | ⟨-, -, -, rfl⟩ | ⟨-, rfl⟩⟩⟩ :=
      exec_next he
    -- the accepted PUSH
    case inr.inr.inl =>
      have hj : j = s.tail := by
        by_contra hj
        exact hne (afterPush_slot_of_ne (s := present pt w s) hm hj)
      subst hj
      have hport : pt = .p := hp
      exact ⟨rfl, ht, w, b, by rw [hport], hd, afterPush_slot_tail (s := present pt w s) hm, rfl⟩
    all_goals exact absurd rfl hne
  · exact absurd (syncView_slot pt s j) hne
  · exact absurd rfl hne

/-- Settles O42: no command writes a view register, and a sync step writes its own. -/
theorem viewsChangeOnlyBySyncAndReset : Obligations.ViewsChangeOnlyBySyncAndReset := by
  intro s t m h
  obtain ⟨hcfg, -⟩ := move_frame h
  refine ⟨fun hc => ?_, fun hl => ?_⟩
  · have hct : t.cfg.view = .coherent := hcfg ▸ hc
    refine ⟨hv_of_coherent hc, tv_of_coherent hc, hv_of_coherent hct, tv_of_coherent hct, ?_⟩
    rintro ⟨pt, rfl⟩
    cases h
    exact syncView_of_coherent pt hc
  · have hlt : t.cfg.view = .lagged := hcfg ▸ hl
    rw [hv_of_lagged hl, hv_of_lagged hlt, tv_of_lagged hl, tv_of_lagged hlt]
    cases m with
    | command pt w =>
      obtain ⟨-, hhv, htv, -⟩ := move_command_frame h
      exact ⟨fun hne => absurd hhv hne, fun hne => absurd htv hne⟩
    | sync pt =>
      cases h
      obtain h | ⟨-, rfl, -, h⟩ | ⟨-, rfl, -, h⟩ := syncView_cases pt s <;> simp [h]
    | reset => simp

/-! ### The issue order -/

theorem issuedOn_answered_same (h : List Event) (rsp : Word) :
    issuedOn pt (.answered pt w rsp :: h) = issuedOn pt h ++ [w] := by
  simp [issuedOn, issuedWord]

theorem issuedOn_answered_other {p' : Port} (hp : p' ≠ pt) (h : List Event) (rsp : Word) :
    issuedOn pt (.answered p' w rsp :: h) = issuedOn pt h := by
  simp [issuedOn, issuedWord, hp]

theorem history_of_move_command (h : move (.command pt w) s = .next t) :
    ∃ rsp, t.history = .answered pt w rsp :: s.history := by
  obtain ⟨rsp, hanswer, -⟩ := statusIsProducedByItsCommand s t pt w h
  exact ⟨rsp, hanswer⟩

theorem issuedOn_syncView (pt p' : Port) (s : State) :
    issuedOn pt (syncView p' s).history = issuedOn pt s.history := by
  obtain h | ⟨-, -, -, h⟩ | ⟨-, -, -, h⟩ := syncView_cases p' s <;> rw [h] <;> simp [issuedOn, issuedWord]

/-- A sync step and a reset issue nothing. -/
theorem issuedOn_of_not_command (hm : ∀ p' w, m ≠ .command p' w) (h : move m s = .next t) :
    issuedOn pt t.history = issuedOn pt s.history := by
  cases m with
  | command p' w => exact absurd rfl (hm p' w)
  | sync p' => cases h; exact issuedOn_syncView pt p' s
  | reset => cases h; simp [issuedOn, issuedWord]

/-- Settles O35: a turn moves at most one word, the first of its own agent's list, to the end of what was issued. -/
theorem issueOrderIsKept : Obligations.IssueOrderIsKept := by
  intro s t h
  obtain ⟨-, ⟨hs, rfl⟩ | ⟨a, rest, hs, h⟩⟩ := step_next h
  · simp [hs]
  rw [hs]
  obtain ⟨rfl, -⟩ | ⟨w, ws, rfl, hw, hm⟩ | ⟨w, ws, rfl, hw, hm⟩ | ⟨rfl, hm⟩ | ⟨rfl, hm⟩ | ⟨rfl, hm⟩ := turn_next h
  · simp
  all_goals obtain ⟨-, hp, hq, hsch⟩ := move_frame hm
  · obtain ⟨rsp, hh⟩ := history_of_move_command hm
    have hw : s.issueP = w :: ws := hw
    rw [hh, hp, hq, hsch, issuedOn_answered_same, issuedOn_answered_other (by simp), hw]
    simp
  · obtain ⟨rsp, hh⟩ := history_of_move_command hm
    have hw : s.issueQ = w :: ws := hw
    rw [hh, hp, hq, hsch, issuedOn_answered_same, issuedOn_answered_other (by simp), hw]
    simp
  all_goals
    rw [issuedOn_of_not_command (by simp) hm, issuedOn_of_not_command (by simp) hm, hp, hq, hsch]
    simp

/-! ### The fault log -/

/-- A step is an agent's turn with nothing to do, or one atomic step of the same block. -/
theorem step_next_move (h : step s = .next t) :
    t = { s with schedule := s.schedule.tail } ∨
    ∃ m ip iq, move m { s with schedule := s.schedule.tail, issueP := ip, issueQ := iq } = .next t := by
  obtain ⟨-, ⟨hs, rfl⟩ | ⟨a, rest, hs, h⟩⟩ := step_next h
  · left
    rw [hs, List.tail_nil, ← hs]
  rw [hs]
  obtain ⟨rfl, -⟩ | ⟨w, ws, -, -, h⟩ | ⟨w, ws, -, -, h⟩ | ⟨-, h⟩ | ⟨-, h⟩ | ⟨-, h⟩ := turn_next h
  · exact .inl rfl
  · exact .inr ⟨_, ws, s.issueQ, h⟩
  · exact .inr ⟨_, s.issueP, ws, h⟩
  all_goals exact .inr ⟨_, s.issueP, s.issueQ, h⟩

/-- An atomic step logs nothing, or the one record of the fault it answers. -/
theorem faults_of_move (h : move m s = .next t) :
    t.faults = s.faults ∨ ∃ k pt w, m = .command pt w ∧ t = raiseFault k (present pt w s) := by
  cases m with
  | sync pt => cases h; exact .inl (syncView_faults pt s)
  | reset => cases h; exact .inl rfl
  | command pt w =>
    obtain ⟨-, rfl⟩ | ⟨_, -, -, rfl⟩ | ⟨_, -, -, -, rfl⟩ | ⟨_, -, -, -, rfl⟩ | ⟨-, -, -, rfl⟩ | ⟨-, -, -, rfl⟩ |
      ⟨-, -, rfl⟩ := move_command_next h
    · exact .inr ⟨_, pt, w, rfl, rfl⟩
    · exact .inr ⟨_, pt, w, rfl, rfl⟩
    all_goals exact .inl rfl

/-- Settles O36: the log grows only by raising a fault, which answers its code and leaves the block. -/
theorem faultLogOnlyGrows : Obligations.FaultLogOnlyGrows := by
  intro s t h
  obtain rfl | ⟨m, ip, iq, h⟩ := step_next_move h
  · exact .inl rfl
  obtain hsame | ⟨k, pt, w, -, rfl⟩ := faults_of_move h
  · exact .inl hsame
  · refine .inr ⟨{ kind := k, port := pt, cmd := w }, rfl, ⟨rfl, rfl, rfl, rfl, fun _ => rfl⟩, ?_⟩
    cases k <;> rfl

/-- The outcome of a step with another fault log: the same state, with the same records appended. -/
def AppendsAlike (f : State → Host.Outcome State Fault Refusal) (s t : State) : Prop :=
  ∃ d, t.faults = s.faults ++ d ∧ ∀ fs, f { s with faults := fs } = .next { t with faults := fs ++ d }

theorem appendsAlike_of_same {f : State → Host.Outcome State Fault Refusal} (hsame : t.faults = s.faults)
    (h : ∀ fs, f { s with faults := fs } = .next { t with faults := fs }) : AppendsAlike f s t :=
  ⟨[], by simpa using hsame, fun fs => by rw [List.append_nil, h fs]⟩

theorem exec_appendsAlike {i : Instr} (h : exec i s = .next t) : AppendsAlike (exec i) s t := by
  obtain ⟨hl, ⟨hp, rfl⟩ | ⟨hp, ⟨b, rfl, hf, rfl⟩ | ⟨b, rfl, hf, ht, rfl⟩ | ⟨rfl, he, rfl⟩ | ⟨rfl, he, hh, rfl⟩ |
    ⟨rfl, rfl⟩⟩⟩ := exec_next h
  · exact ⟨_, rfl, fun fs => exec_of_wrong_port hl hp⟩
  · exact appendsAlike_of_same rfl fun fs => exec_push_of_full hl hp hf
  · exact appendsAlike_of_same rfl fun fs => exec_push_of_room hl hp hf ht
  · exact appendsAlike_of_same rfl fun fs => exec_pop_of_empty hl hp he
  · exact appendsAlike_of_same rfl fun fs => exec_pop_of_byte hl hp he hh
  · exact appendsAlike_of_same rfl fun fs => exec_isempty_on_q hl hp

theorem syncView_of_faults (pt : Port) (s : State) (fs : List FaultRecord) :
    syncView pt { s with faults := fs } = { syncView pt s with faults := fs } := by
  have henabled : syncEnabled pt { s with faults := fs } = syncEnabled pt s := rfl
  simp only [syncView, henabled]
  cases syncEnabled pt s <;> cases pt <;> rfl

theorem move_appendsAlike (h : move m s = .next t) : AppendsAlike (move m) s t := by
  obtain ⟨pt, w, e, rfl, hd, rfl⟩ | ⟨pt, w, i, rfl, hd, he⟩ | ⟨pt, rfl, rfl⟩ | ⟨rfl, rfl⟩ := move_next h
  · exact ⟨_, rfl, fun fs => move_command_of_reserved hd⟩
  · obtain ⟨d, hlog, hexec⟩ := exec_appendsAlike he
    exact ⟨d, hlog, fun fs => (move_command_of_ok hd).trans (hexec fs)⟩
  · exact appendsAlike_of_same (syncView_faults pt s) fun fs => congrArg _ (syncView_of_faults pt s fs)
  · exact appendsAlike_of_same rfl fun fs => rfl

theorem turn_appendsAlike (h : turn a s = .next t) : AppendsAlike (turn a) s t := by
  obtain ⟨rfl, ⟨rfl, hn⟩ | ⟨rfl, hn⟩⟩ | ⟨w, ws, rfl, hw, hm⟩ | ⟨w, ws, rfl, hw, hm⟩ | ⟨rfl, hm⟩ | ⟨rfl, hm⟩ | ⟨rfl, hm⟩ :=
    turn_next h
  · exact appendsAlike_of_same rfl fun fs => by simp only [turn, hn]
  · exact appendsAlike_of_same rfl fun fs => by simp only [turn, hn]
  · obtain ⟨d, hlog, hmove⟩ := move_appendsAlike hm
    exact ⟨d, hlog, fun fs => (turn_p_of_issued (s := { s with faults := fs }) hw).trans (hmove fs)⟩
  · obtain ⟨d, hlog, hmove⟩ := move_appendsAlike hm
    exact ⟨d, hlog, fun fs => (turn_q_of_issued (s := { s with faults := fs }) hw).trans (hmove fs)⟩
  all_goals exact move_appendsAlike hm

theorem step_appendsAlike (h : step s = .next t) : AppendsAlike step s t := by
  obtain ⟨hl, ⟨hs, rfl⟩ | ⟨a, rest, hs, h⟩⟩ := step_next h
  · refine appendsAlike_of_same rfl fun fs => ?_
    rw [step, guarded_of_legal (s := { t with faults := fs }) hl, nextTurn, hs]
  · obtain ⟨d, hlog, hturn⟩ := turn_appendsAlike h
    exact ⟨d, hlog, fun fs => (step_of_scheduled (s := { s with faults := fs }) hl hs).trans (hturn fs)⟩

/-- Settles O37: no test of a step reads the fault log, so the step runs alike over any. -/
theorem faultsChangeNoLaterAnswer : Obligations.FaultsChangeNoLaterAnswer := by
  intro s t fs h
  obtain ⟨d, hlog, hstep⟩ := step_appendsAlike h
  refine ⟨_, hstep fs, rfl, fun d' hd' => ?_⟩
  rw [List.append_cancel_left (hlog.symm.trans hd')]

/-! ### The end of a run -/

theorem ended_iff : s.ended = true ↔ s.issueP = [] ∧ s.issueQ = [] ∧ Agent.rst ∉ s.schedule := by
  simp [State.ended, and_assoc]

theorem receivedOn_syncView (pt p' : Port) (s : State) :
    receivedOn pt (syncView p' s).history = receivedOn pt s.history := by
  obtain h | ⟨-, -, -, h⟩ | ⟨-, -, -, h⟩ := syncView_cases p' s <;> rw [h] <;> simp [receivedOn, receivedWord]

theorem syncView_observed (pt : Port) (s : State) : (syncView pt s).observed = s.observed := by
  simp [State.observed, receivedOn_syncView]

/-- With no word to issue and no reset, a turn holds the block or is a sync step. -/
theorem turn_of_settled (hp : s.issueP = []) (hq : s.issueQ = []) (ha : a ≠ .rst) (h : turn a s = .next t) :
    t = s ∨ ∃ pt, t = syncView pt s := by
  obtain ⟨rfl, -⟩ | ⟨w, ws, -, hw, -⟩ | ⟨w, ws, -, hw, -⟩ | ⟨-, h⟩ | ⟨-, h⟩ | ⟨rfl, -⟩ := turn_next h
  · exact .inl rfl
  · simp [hp] at hw
  · simp [hq] at hw
  · cases h; exact .inr ⟨_, rfl⟩
  · cases h; exact .inr ⟨_, rfl⟩
  · exact absurd rfl ha

/-- Settles O38: what is left after the end are sync steps, and they write nothing that is observed. -/
theorem endedRunsAreSettled : Obligations.EndedRunsAreSettled := by
  intro s t hend h
  obtain ⟨hp, hq, hr⟩ := ended_iff.mp hend
  obtain ⟨-, ⟨-, rfl⟩ | ⟨a, rest, hs, h⟩⟩ := step_next h
  · exact ⟨hend, rfl⟩
  rw [hs, List.mem_cons, not_or] at hr
  have hrest : State.ended { s with schedule := rest } = true := ended_iff.mpr ⟨hp, hq, hr.2⟩
  obtain rfl | ⟨pt, rfl⟩ := turn_of_settled (s := { s with schedule := rest }) hp hq (Ne.symm hr.1) h
  · exact ⟨hrest, rfl⟩
  · obtain ⟨-, hip, hiq, hsch⟩ := move_frame (m := .sync pt) (s := { s with schedule := rest }) rfl
    refine ⟨ended_iff.mpr ⟨hip.trans hp, hiq.trans hq, hsch ▸ hr.2⟩, syncView_observed pt _⟩

end Sys2Proof.Machine
end

section
/-! Each command on its own port from a state that meets the invariant: the state it leaves, and the stored bytes and
the answer as the port's user sees them (40_producer_port.md R80, 41_consumer_port.md R90, R91). -/

namespace Sys2Proof.Machine

variable {s t : State} {w : Word} {b : Byte}

theorem move_push_of_full (hi : s.Inv) (hd : decode w = .ok (.push b)) (hf : s.seesFull = true) :
    move (.command .p w) s = .next (respond .overflow 0x00#8 (present .p w s)) :=
  (move_command_of_ok hd).trans (exec_push_of_full hi.legal rfl hf)

theorem move_push_of_room (hi : s.Inv) (hd : decode w = .ok (.push b)) (hf : s.seesFull = false) :
    move (.command .p w) s = .next (afterPush b (present .p w s)) :=
  (move_command_of_ok hd).trans (exec_push_of_room hi.legal rfl hf hi.index_lt.2)

theorem move_pop_of_empty (hi : s.Inv) (hd : decode w = .ok .pop) (he : s.seesEmpty = true) :
    move (.command .q w) s = .next (respond .empty 0x00#8 (present .q w s)) :=
  (move_command_of_ok hd).trans (exec_pop_of_empty hi.legal rfl he)

theorem move_pop_of_byte (hi : s.Inv) (hd : decode w = .ok .pop) (he : s.seesEmpty = false) :
    move (.command .q w) s = .next (afterPop (present .q w s)) :=
  (move_command_of_ok hd).trans (exec_pop_of_byte hi.legal rfl he hi.index_lt.1)

theorem move_isempty (hi : s.Inv) (hd : decode w = .ok .isempty) :
    move (.command .q w) s = .next (respond .ok (if s.seesEmpty then 0x01#8 else 0x00#8) (present .q w s)) :=
  (move_command_of_ok hd).trans (exec_isempty_on_q hi.legal rfl)

theorem move_of_wrong_port {pt : Port} {i : Instr} (hi : s.Inv) (hd : decode w = .ok i) (hp : i.port ≠ pt) :
    move (.command pt w) s = .next (raiseFault .errPort (present pt w s)) :=
  (move_command_of_ok hd).trans (exec_of_wrong_port hi.legal (Ne.symm hp))

theorem decode_pop : decode 0x0200#16 = .ok .pop := decode_encode .pop

theorem decode_isempty : decode 0x0300#16 = .ok .isempty := decode_encode .isempty

/-- One command's rule: from `s` the step answers `rsp` and leaves `queue` stored, the invariant and the configuration
kept. -/
structure Answers (pt : Port) (w rsp : Word) (queue : List Byte) (s t : State) : Prop where
  move    : move (.command pt w) s = .next t
  inv     : t.Inv
  cfg     : t.cfg = s.cfg
  queue   : t.queue = queue
  history : t.history = .answered pt w rsp :: s.history

theorem Answers.lastResponse {pt : Port} {rsp : Word} {q : List Byte} (h : Answers pt w rsp q s t) :
    t.lastResponse = some rsp := by
  rw [State.lastResponse, h.history]

theorem push_dropped (b : Byte) (hi : s.Inv) (hf : s.seesFull = true) :
    ∃ t, Answers .p (encode (.push b)) 0x0200#16 s.queue s t :=
  have h := move_push_of_full hi (decode_encode (.push b)) hf
  ⟨_, h, move_keeps_inv hi h, rfl, rfl, rfl⟩

theorem push_stored (b : Byte) (hi : s.Inv) (hf : s.seesFull = false) :
    ∃ t, Answers .p (encode (.push b)) 0x0000#16 (s.queue ++ [b]) s t :=
  have h := move_push_of_room hi (decode_encode (.push b)) hf
  ⟨_, h, move_keeps_inv hi h, rfl, queue_afterPush (inv_present .p _ hi) hf, rfl⟩

theorem pop_empty (hi : s.Inv) (he : s.seesEmpty = true) : ∃ t, Answers .q 0x0200#16 0x0100#16 s.queue s t :=
  have h := move_pop_of_empty hi decode_pop he
  ⟨_, h, move_keeps_inv hi h, rfl, rfl, rfl⟩

theorem pop_byte (hi : s.Inv) (he : s.seesEmpty = false) :
    ∃ b rest t, s.queue = b :: rest ∧ Answers .q 0x0200#16 (wordOf 0x00#8 b) rest s t :=
  have h := move_pop_of_byte hi decode_pop he
  ⟨_, _, _, queue_afterPop (inv_present .q 0x0200#16 hi) he, h, move_keeps_inv hi h, rfl, rfl, rfl⟩

theorem isempty_answers (hi : s.Inv) :
    ∃ t, Answers .q 0x0300#16 (if s.seesEmpty then 0x0001#16 else 0x0000#16) s.queue s t := by
  have h := move_isempty hi decode_isempty
  refine ⟨_, h, move_keeps_inv hi h, rfl, rfl, ?_⟩
  cases he : s.seesEmpty <;> rfl

theorem reset_empties (hi : s.Inv) : ∃ t, move .reset s = .next t ∧ t.Inv ∧ t.cfg = s.cfg ∧ t.queue = [] :=
  ⟨_, rfl, inv_resetEvent hi.legal hi.storage, rfl, resetEvent_queue s⟩

/-- Under `coherent` the two tests are about the stored bytes alone. -/
theorem seesFull_iff_of_coherent (hi : s.Inv) (hc : s.cfg.view = .coherent) :
    s.seesFull = true ↔ s.queue.length = s.cfg.slots - 1 := by
  rw [seesFull_of_inv hi, (estimates_of_coherent hc).1, queue_length]

theorem seesEmpty_iff_of_coherent (hi : s.Inv) (hc : s.cfg.view = .coherent) : s.seesEmpty = true ↔ s.queue = [] := by
  rw [seesEmpty_of_inv hi, (estimates_of_coherent hc).2, ← queue_length, List.length_eq_zero_iff]

theorem not_seesFull_of_coherent (hi : s.Inv) (hc : s.cfg.view = .coherent) (hq : s.queue.length < s.cfg.slots - 1) :
    s.seesFull = false := by
  rw [← Bool.not_eq_true, seesFull_iff_of_coherent hi hc]
  omega

theorem not_seesEmpty_of_coherent (hi : s.Inv) (hc : s.cfg.view = .coherent) (hq : s.queue ≠ []) :
    s.seesEmpty = false := by
  rwa [← Bool.not_eq_true, seesEmpty_iff_of_coherent hi hc]

theorem moves_pair {m n : Move} {u : State} (h : move m s = .next t) (h' : move n t = .next u) :
    moves [m, n] s = .next u := by
  rw [moves_cons h, moves_cons h']
  rfl

/-- R115 (a): a POP and a PUSH on a full buffer, in either order. -/
theorem both_orders_when_full (b : Byte) (hi : s.Inv) (hc : s.cfg.view = .coherent) (hfull : s.full = true) :
    ∃ o t u : State, ∃ y,
      s.queue.head? = some y ∧
      moves [.command .q 0x0200#16, .command .p (encode (.push b))] s = .next t ∧
      t.history = .answered .p (encode (.push b)) 0x0000#16 :: .answered .q 0x0200#16 (wordOf 0x00#8 y) :: s.history ∧
      t.queue = s.queue.tail ++ [b] ∧
      move (.command .p (encode (.push b))) s = .next o ∧ o.lastResponse = some 0x0200#16 ∧
      move (.command .q 0x0200#16) o = .next u ∧ u.lastResponse = some (wordOf 0x00#8 y) ∧
      u.queue = s.queue.tail := by
  have hslots := hi.two_le
  have hlen : s.queue.length = s.cfg.slots - 1 := by simpa [State.full] using hfull
  have hne : s.queue ≠ [] := List.ne_nil_of_length_pos (by omega)
  obtain ⟨y, rest, p, hq, hp⟩ := pop_byte hi (not_seesEmpty_of_coherent hi hc hne)
  have hroom : p.seesFull = false := not_seesFull_of_coherent hp.inv (hp.cfg ▸ hc) (by
    rw [hp.queue, hp.cfg, ← hlen, hq]
    simp)
  obtain ⟨t, ht⟩ := push_stored b hp.inv hroom
  obtain ⟨o, ho⟩ := push_dropped b hi ((seesFull_iff_of_coherent hi hc).mpr hlen)
  obtain ⟨y', rest', u, hq', hu⟩ := pop_byte ho.inv (not_seesEmpty_of_coherent ho.inv (ho.cfg ▸ hc) (ho.queue ▸ hne))
  rw [ho.queue, hq] at hq'
  cases hq'
  refine ⟨o, t, u, y, by rw [hq]; rfl, moves_pair hp.move ht.move, by rw [ht.history, hp.history], ?_, ho.move,
    ho.lastResponse, hu.move, hu.lastResponse, ?_⟩
  · rw [ht.queue, hp.queue, hq, List.tail_cons]
  · rw [hu.queue, hq, List.tail_cons]

/-- R115 (b) and (c): a PUSH and a POP, and a PUSH and an ISEMPTY, on an empty buffer, in either order. -/
theorem both_orders_when_empty (b : Byte) (hi : s.Inv) (hc : s.cfg.view = .coherent) (hempty : s.empty = true) :
    ∃ t u v w : State,
      moves [.command .p (encode (.push b)), .command .q 0x0200#16] s = .next t ∧
      t.lastResponse = some (wordOf 0x00#8 b) ∧ t.queue = [] ∧
      moves [.command .q 0x0200#16, .command .p (encode (.push b))] s = .next u ∧
      u.history = .answered .p (encode (.push b)) 0x0000#16 :: .answered .q 0x0200#16 0x0100#16 :: s.history ∧
      u.queue = [b] ∧
      moves [.command .p (encode (.push b)), .command .q 0x0300#16] s = .next v ∧
      v.lastResponse = some 0x0000#16 ∧
      moves [.command .q 0x0300#16, .command .p (encode (.push b))] s = .next w ∧
      w.history = .answered .p (encode (.push b)) 0x0000#16 :: .answered .q 0x0300#16 0x0001#16 :: s.history := by
  have hslots := hi.two_le
  have hnil : s.queue = [] := List.eq_nil_of_length_eq_zero (by simpa [State.empty] using hempty)
  have hsees : s.seesEmpty = true := (seesEmpty_iff_of_coherent hi hc).mpr hnil
  have hroom : ∀ x : State, x.Inv → x.cfg = s.cfg → x.queue = s.queue → x.seesFull = false := fun x hx hxc hxq =>
    not_seesFull_of_coherent hx (hxc ▸ hc) (by rw [hxq, hxc, hnil, List.length_nil]; omega)
  obtain ⟨p, hp⟩ := push_stored b hi (hroom s hi rfl rfl)
  have hbyte : p.seesEmpty = false := not_seesEmpty_of_coherent hp.inv (hp.cfg ▸ hc) (by simp [hp.queue])
  obtain ⟨b', rest, t, hq, ht⟩ := pop_byte hp.inv hbyte
  rw [hp.queue, hnil, List.nil_append] at hq
  cases hq
  obtain ⟨e, he⟩ := pop_empty hi hsees
  obtain ⟨u, hu⟩ := push_stored b he.inv (hroom e he.inv he.cfg he.queue)
  obtain ⟨v, hv⟩ := isempty_answers hp.inv
  rw [hbyte] at hv
  obtain ⟨f, hf⟩ := isempty_answers hi
  rw [hsees] at hf
  obtain ⟨w, hw⟩ := push_stored b hf.inv (hroom f hf.inv hf.cfg hf.queue)
  refine ⟨t, u, v, w, moves_pair hp.move ht.move, ht.lastResponse, ht.queue, moves_pair he.move hu.move,
    by rw [hu.history, he.history], ?_, moves_pair hp.move hv.move, hv.lastResponse, moves_pair hf.move hw.move,
    by rw [hw.history, hf.history]; rfl⟩
  rw [hu.queue, he.queue, hnil, List.nil_append]

/-- R115 (d): a PUSH and a reset, in either order. -/
theorem both_orders_with_reset (b : Byte) (hi : s.Inv) (hc : s.cfg.view = .coherent) :
    ∃ t u : State,
      moves [.command .p (encode (.push b)), .reset] s = .next t ∧ t.queue = [] ∧
      moves [.reset, .command .p (encode (.push b))] s = .next u ∧
      u.lastResponse = some 0x0000#16 ∧ u.queue = [b] := by
  have hslots := hi.two_le
  obtain ⟨p, hp⟩ := exists_move_eq_next (m := .command .p (encode (.push b))) hi
  obtain ⟨t, ht, -, -, htq⟩ := reset_empties (move_keeps_inv hi hp)
  obtain ⟨r, hr, hri, hrc, hrq⟩ := reset_empties hi
  obtain ⟨u, hu⟩ := push_stored b hri (not_seesFull_of_coherent hri (hrc ▸ hc) (by
    rw [hrq, hrc, List.length_nil]
    omega))
  refine ⟨t, u, moves_pair hp ht, htq, moves_pair hr hu.move, hu.lastResponse, ?_⟩
  rw [hu.queue, hrq, List.nil_append]

/-- Settles O39: under `coherent` both tests are about the stored bytes, so each order is two rules in a row. -/
theorem bothOrdersOfSimultaneousCommands : Obligations.BothOrdersOfSimultaneousCommands := fun _ b hi hc =>
  ⟨both_orders_when_full b hi hc, both_orders_when_empty b hi hc, both_orders_with_reset b hi hc⟩

end Sys2Proof.Machine
end

section
/-! What each atomic step makes of the two estimates (10_state.md R26), and so which answers cannot be taken back
(41_consumer_port.md R92). -/

namespace Sys2Proof.Machine

variable {s t : State} {b : Byte} {w : Word} {m : Move}

theorem producerCount_afterPush (hi : s.Inv) (hf : s.seesFull = false) :
    (afterPush b s).producerCount = s.producerCount + 1 := by
  obtain ⟨hc, hHV, hHTV, hTV, hTHV⟩ := hi.bounds
  rw [seesFull_eq_false_iff_totals hi] at hf
  rw [producerCount_of_inv hi, State.producerCount, afterPush_cfg, afterPush_tail, afterPush_hv, hi.totals.tail,
    hi.totals.hv, inc_mod, distC_mod (by omega) (by omega)]
  omega

theorem consumerCount_afterPop (hi : s.Inv) (he : s.seesEmpty = false) :
    s.consumerCount = (afterPop s).consumerCount + 1 := by
  obtain ⟨hc, hHV, hHTV, hTV, hTHV⟩ := hi.bounds
  rw [seesEmpty_eq_false_iff_totals hi] at he
  rw [consumerCount_of_inv hi, State.consumerCount, afterPop_cfg, afterPop_tv, afterPop_head, hi.totals.head,
    hi.totals.tv, inc_mod, distC_mod (by omega) (by omega)]
  omega

/-- Under `coherent` a PUSH is seen by the consumer at once, under `lagged` only by a sync step. -/
theorem consumerCount_afterPush (hi : s.Inv) (hf : s.seesFull = false) :
    (afterPush b s).consumerCount = if s.cfg.view = .coherent then s.consumerCount + 1 else s.consumerCount := by
  cases hv : s.cfg.view with
  | coherent =>
    rw [(estimates_of_coherent (s := afterPush b s) hv).2, (estimates_of_coherent hv).2, count_afterPush hi hf]
    rfl
  | lagged =>
    rw [State.consumerCount, State.consumerCount, tv_of_lagged (s := afterPush b s) hv, tv_of_lagged hv]
    rfl

/-- Under `coherent` a POP is seen by the producer at once, under `lagged` only by a sync step. -/
theorem producerCount_afterPop (hi : s.Inv) (he : s.seesEmpty = false) :
    (afterPop s).producerCount = if s.cfg.view = .coherent then s.producerCount - 1 else s.producerCount := by
  cases hv : s.cfg.view with
  | coherent =>
    rw [(estimates_of_coherent (s := afterPop s) hv).1, (estimates_of_coherent hv).1, count_afterPop hi he]
    rfl
  | lagged =>
    rw [State.producerCount, State.producerCount, hv_of_lagged (s := afterPop s) hv, hv_of_lagged hv]
    rfl

@[simp] theorem syncView_cfg (pt : Port) (s : State) : (syncView pt s).cfg = s.cfg :=
  (move_frame (m := .sync pt) rfl).1

@[simp] theorem syncView_count (pt : Port) (s : State) : (syncView pt s).count = s.count := by
  simp [State.count]

/-- After its sync step a view is the index, in either build (20_memory.md R51). -/
@[simp] theorem hv_syncView_p (s : State) : (syncView .p s).hv = s.head := by
  cases hv : s.cfg.view <;> cases he : syncEnabled .p s <;> simp_all [State.hv, syncView, syncEnabled]

@[simp] theorem tv_syncView_q (s : State) : (syncView .q s).tv = s.tail := by
  cases hv : s.cfg.view <;> cases he : syncEnabled .q s <;> simp_all [State.tv, syncView, syncEnabled]

@[simp] theorem hv_syncView_q (s : State) : (syncView .q s).hv = s.hv := by
  obtain h | ⟨-, h, -⟩ | ⟨-, -, -, h⟩ := syncView_cases .q s
  · rw [h]
  · cases h
  · rw [h]; rfl

@[simp] theorem tv_syncView_p (s : State) : (syncView .p s).tv = s.tv := by
  obtain h | ⟨-, -, -, h⟩ | ⟨-, h, -⟩ := syncView_cases .p s
  · rw [h]
  · rw [h]; rfl
  · cases h

theorem producerCount_syncView (pt : Port) (s : State) :
    (syncView pt s).producerCount = if pt = .p then s.count else s.producerCount := by
  cases pt <;> simp [State.producerCount, State.count]

theorem consumerCount_syncView (pt : Port) (s : State) :
    (syncView pt s).consumerCount = if pt = .q then s.count else s.consumerCount := by
  cases pt <;> simp [State.consumerCount, State.count]

theorem not_seesEmpty_iff (hi : s.Inv) : s.seesEmpty = false ↔ 0 < s.consumerCount := by
  rw [← Bool.not_eq_true, seesEmpty_of_inv hi]
  omega

theorem not_seesFull_iff (hi : s.Inv) : s.seesFull = false ↔ s.producerCount < s.cfg.slots - 1 := by
  have := producerCount_le hi
  rw [← Bool.not_eq_true, seesFull_of_inv hi]
  omega

theorem afterPush_keeps_byte_seen (hi : s.Inv) (hi' : (afterPush b s).Inv) (hf : s.seesFull = false)
    (he : s.seesEmpty = false) : (afterPush b s).seesEmpty = false := by
  rw [not_seesEmpty_iff hi] at he
  rw [not_seesEmpty_iff hi', consumerCount_afterPush hi hf]
  split <;> omega

theorem afterPop_keeps_room_seen (hi : s.Inv) (hi' : (afterPop s).Inv) (hf : s.seesFull = false)
    (he : s.seesEmpty = false) : (afterPop s).seesFull = false := by
  rw [not_seesFull_iff hi] at hf
  rw [not_seesFull_iff hi', producerCount_afterPop hi he, afterPop_cfg]
  split <;> omega

theorem syncView_keeps_byte_seen (pt : Port) (hi : s.Inv) (he : s.seesEmpty = false) :
    (syncView pt s).seesEmpty = false := by
  have hcount := count_pos_of_not_seesEmpty hi he
  rw [not_seesEmpty_iff hi] at he
  rw [not_seesEmpty_iff (inv_syncView pt hi), consumerCount_syncView]
  split <;> assumption

theorem syncView_keeps_room_seen (pt : Port) (hi : s.Inv) (hf : s.seesFull = false) :
    (syncView pt s).seesFull = false := by
  have hcount := count_le_producerCount hi
  rw [not_seesFull_iff hi] at hf
  rw [not_seesFull_iff (inv_syncView pt hi), producerCount_syncView, syncView_cfg]
  split <;> omega

/-! ### The consumer's next POP -/

/-- The consumer sees a byte, and the oldest one is `b`. -/
structure SeesOldest (b : Byte) (s : State) : Prop where
  inv    : s.Inv
  sees   : s.seesEmpty = false
  oldest : s.queue.head? = some b

theorem sync_keeps_oldest (pt : Port) (h : SeesOldest b s) : SeesOldest b (syncView pt s) :=
  ⟨inv_syncView pt h.inv, syncView_keeps_byte_seen pt h.inv h.sees, (syncView_queue pt s).symm ▸ h.oldest⟩

theorem command_p_keeps_oldest (h : SeesOldest b s) (hm : move (.command .p w) s = .next t) : SeesOldest b t := by
  have hi' : t.Inv := move_keeps_inv h.inv hm
  obtain ⟨-, rfl⟩ | ⟨_, -, -, rfl⟩ | ⟨_, -, -, -, rfl⟩ | ⟨c, hd, -, hf, rfl⟩ | ⟨-, hp, -⟩ | ⟨-, hp, -⟩ | ⟨-, hp, -⟩ :=
    move_command_next hm
  -- the accepted PUSH
  case inr.inr.inr.inl =>
    have hi := inv_present .p w h.inv
    have hf : (present .p w s).seesFull = false := seesFull_eq_false_iff.mpr hf
    refine ⟨hi', afterPush_keeps_byte_seen hi hi' hf h.sees, ?_⟩
    rw [queue_afterPush hi hf, present_queue, List.head?_append, h.oldest]
    rfl
  -- Q's commands
  case inr.inr.inr.inr.inl | inr.inr.inr.inr.inr.inl | inr.inr.inr.inr.inr.inr => cases hp
  all_goals exact ⟨hi', h.sees, h.oldest⟩

theorem moves_keep_oldest {ms : List Move} (h : SeesOldest b s)
    (hms : ∀ m ∈ ms, (∃ w, m = .command .p w) ∨ ∃ pt, m = .sync pt) (hrun : moves ms s = .next t) : SeesOldest b t := by
  induction ms generalizing s with
  | nil => cases hrun; exact h
  | cons m ms ih =>
    obtain ⟨u, hu⟩ := exists_move_eq_next (m := m) h.inv
    rw [moves_cons hu] at hrun
    refine ih ?_ (fun n hn => hms n (List.mem_cons_of_mem m hn)) hrun
    obtain ⟨w, rfl⟩ | ⟨pt, rfl⟩ := hms m List.mem_cons_self
    · exact command_p_keeps_oldest h hu
    · cases hu
      exact sync_keeps_oldest pt h

/-- Settles O40: P's commands add at the end or nothing, a sync step moves no index, and neither makes the consumer see
less. -/
theorem nonEmptyAnswerIsStable : Obligations.NonEmptyAnswerIsStable := by
  intro s t ms hi he hms hrun
  obtain ⟨b, rest, -, hq, -⟩ := pop_byte hi he
  have holdest : s.queue.head? = some b := by rw [hq]; rfl
  have ht := moves_keep_oldest ⟨hi, he, holdest⟩ hms hrun
  obtain ⟨b', rest', u, hq', hu⟩ := pop_byte ht.inv ht.sees
  have hb : b' = b := by simpa [hq'] using ht.oldest
  exact ⟨u, b', hu.move, hu.lastResponse, hb ▸ holdest⟩

end Sys2Proof.Machine
end

section
/-! Two states in which a command meets the same tests: it answers alike (00_scope.md R12, 20_memory.md R52). -/

namespace Sys2Proof.Machine

variable {s t s' t' : State} {b : Byte} {w : Word} {m : Move} {pt : Port}

theorem exists_error_of_isReserved (hr : isReserved w = true) : ∃ e, decode w = .error e := by
  cases hd : decode w with
  | error e => exact ⟨e, rfl⟩
  | ok i => exact absurd (decode_eq_ok_iff_encode.mp hd) (isReserved_eq_true_iff.mp hr i)

/-- A command's two outcomes from `s` and `t` are of one kind: one answer over the block as it was, or one accepted
command. -/
inductive ActsAlike (pt : Port) (w : Word) (s t : State) : State → State → Prop
  | fault (k : FaultKind) : ActsAlike pt w s t (raiseFault k (present pt w s)) (raiseFault k (present pt w t))
  | answer (st : Status) (val : Byte) :
      ActsAlike pt w s t (respond st val (present pt w s)) (respond st val (present pt w t))
  | push (b : Byte) (room : s.seesFull = false) :
      ActsAlike pt w s t (afterPush b (present pt w s)) (afterPush b (present pt w t))
  | pop (byte : s.seesEmpty = false) : ActsAlike pt w s t (afterPop (present pt w s)) (afterPop (present pt w t))

/-- The two tests are all that a command reads before it answers. -/
theorem actsAlike_of_tests (hs : s.Inv) (hi : t.Inv) (hfull : t.seesFull = s.seesFull) (hempty : t.seesEmpty = s.seesEmpty)
    (h : move (.command pt w) s = .next s') (h' : move (.command pt w) t = .next t') : ActsAlike pt w s t s' t' := by
  obtain ⟨hr, rfl⟩ | ⟨i, hd, hp, rfl⟩ | ⟨b, hd, rfl, hf, rfl⟩ | ⟨b, hd, rfl, hf, rfl⟩ | ⟨hd, rfl, he, rfl⟩ |
    ⟨hd, rfl, he, rfl⟩ | ⟨hd, rfl, -⟩ := move_command_next h
  · obtain ⟨e, hd⟩ := exists_error_of_isReserved hr
    rw [move_command_of_reserved hd] at h'
    cases h'
    exact .fault _
  · rw [move_of_wrong_port hi hd hp] at h'
    cases h'
    exact .fault _
  · rw [move_push_of_full hi hd (hfull.trans (seesFull_eq_true_iff.mpr hf))] at h'
    cases h'
    exact .answer _ _
  · have hf := seesFull_eq_false_iff.mpr hf
    rw [move_push_of_room hi hd (hfull.trans hf)] at h'
    cases h'
    exact .push b hf
  · rw [move_pop_of_empty hi hd (hempty.trans (seesEmpty_eq_true_iff.mpr he))] at h'
    cases h'
    exact .answer _ _
  · have he := seesEmpty_eq_false_iff.mpr he
    rw [move_pop_of_byte hi hd (hempty.trans he)] at h'
    cases h'
    exact .pop he
  · rw [move_isempty hs hd] at h
    rw [move_isempty hi hd, hempty] at h'
    cases h
    cases h'
    exact .answer _ _

/-- The two states hold the same bytes in the same places, and the same fault log. -/
structure SameStorage (s t : State) : Prop where
  slots  : s.cfg.slots = t.cfg.slots
  mem    : s.mem = t.mem
  head   : s.head = t.head
  tail   : s.tail = t.tail
  faults : s.faults = t.faults

theorem SameStorage.slot (h : SameStorage s t) (i : Nat) : s.slot i = t.slot i := by
  rw [State.slot, State.slot, h.mem]

theorem SameStorage.queue (h : SameStorage s t) : s.queue = t.queue := by
  simp only [queue_eq_map_slot, State.count, h.slots, h.head, h.tail, h.slot]

/-- Commands that act alike keep the bytes and places the same, and answer the same. -/
theorem ActsAlike.sameStorage (hsame : SameStorage s t) (h : ActsAlike pt w s t s' t') :
    SameStorage s' t' ∧ s'.lastResponse = t'.lastResponse := by
  obtain ⟨hslots, hmem, hhead, htail, hfaults⟩ := id hsame
  cases h with
  | fault k => exact ⟨⟨hslots, hmem, hhead, htail, by simp [hfaults]⟩, rfl⟩
  | answer st val => exact ⟨⟨hslots, hmem, hhead, htail, hfaults⟩, rfl⟩
  | push b _ => exact ⟨⟨hslots, by simp [afterPush, hmem, htail], hhead, by simp [hslots, htail], hfaults⟩, rfl⟩
  | pop _ => exact ⟨⟨hslots, hmem, by simp [hslots, hhead], htail, hfaults⟩, by simp [hhead, hsame.slot]⟩

/-! ### Two states with the same stored bytes and estimates -/

theorem LooksLike.count (h : LooksLike s t) : s.count = t.count := by
  rw [← queue_length, ← queue_length, h.queue]

theorem LooksLike.seesFull (hs : s.Inv) (ht : t.Inv) (h : LooksLike s t) : t.seesFull = s.seesFull := by
  rw [Bool.eq_iff_iff, seesFull_of_inv ht, seesFull_of_inv hs, h.producer, h.cfg]

theorem LooksLike.seesEmpty (hs : s.Inv) (ht : t.Inv) (h : LooksLike s t) : t.seesEmpty = s.seesEmpty := by
  rw [Bool.eq_iff_iff, seesEmpty_of_inv ht, seesEmpty_of_inv hs, h.consumer]

theorem LooksLike.present (pt : Port) (w : Word) (h : LooksLike s t) : LooksLike (present pt w s) (present pt w t) :=
  ⟨h.cfg, h.queue, h.producer, h.consumer⟩

theorem LooksLike.afterPush (hs : s.Inv) (ht : t.Inv) (h : LooksLike s t) (hf : s.seesFull = false) :
    LooksLike (afterPush b s) (afterPush b t) := by
  have hft := (h.seesFull hs ht).trans hf
  refine ⟨h.cfg, ?_, ?_, ?_⟩
  · rw [queue_afterPush hs hf, queue_afterPush ht hft, h.queue]
  · rw [producerCount_afterPush hs hf, producerCount_afterPush ht hft, h.producer]
  · rw [consumerCount_afterPush hs hf, consumerCount_afterPush ht hft, h.consumer, h.cfg]

theorem LooksLike.afterPop (hs : s.Inv) (ht : t.Inv) (h : LooksLike s t) (he : s.seesEmpty = false) :
    s.slot s.head = t.slot t.head ∧ LooksLike (afterPop s) (afterPop t) := by
  have het := (h.seesEmpty hs ht).trans he
  obtain ⟨hbyte, hrest⟩ := List.cons.inj ((queue_afterPop hs he).symm.trans (h.queue.trans (queue_afterPop ht het)))
  refine ⟨hbyte, h.cfg, hrest, ?_, ?_⟩
  · rw [producerCount_afterPop hs he, producerCount_afterPop ht het, h.producer, h.cfg]
  · have hc := consumerCount_afterPop hs he
    have hct := consumerCount_afterPop ht het
    have := h.consumer
    omega

theorem LooksLike.syncView (pt : Port) (h : LooksLike s t) : LooksLike (syncView pt s) (syncView pt t) := by
  refine ⟨by simp [h.cfg], by simp [h.queue], ?_, ?_⟩
  · rw [producerCount_syncView, producerCount_syncView, h.count, h.producer]
  · rw [consumerCount_syncView, consumerCount_syncView, h.count, h.consumer]

/-- Under `lagged` SyncP is enabled exactly when the producer's estimate is not the count. -/
theorem syncEnabled_p_iff_count (hi : s.Inv) (hl : s.cfg.view = .lagged) :
    syncEnabled .p s = true ↔ s.producerCount ≠ s.count := by
  obtain ⟨hc, hHV, hHTV, hTV, hTHV⟩ := hi.bounds
  rw [syncEnabled_p_iff hl, producerCount_of_inv hi, count_of_inv hi, hi.totals.hv, hi.totals.head, Ne,
    mod_eq_iff hHV (by omega)]
  omega

/-- Under `lagged` SyncQ is enabled exactly when the consumer's estimate is not the count. -/
theorem syncEnabled_q_iff_count (hi : s.Inv) (hl : s.cfg.view = .lagged) :
    syncEnabled .q s = true ↔ s.consumerCount ≠ s.count := by
  obtain ⟨hc, hHV, hHTV, hTV, hTHV⟩ := hi.bounds
  rw [syncEnabled_q_iff hl, consumerCount_of_inv hi, count_of_inv hi, hi.totals.tv, hi.totals.tail, Ne,
    mod_eq_iff hTV (by omega)]
  omega

theorem LooksLike.syncEnabled (pt : Port) (hs : s.Inv) (ht : t.Inv) (h : LooksLike s t) :
    syncEnabled pt t = syncEnabled pt s := by
  cases hv : s.cfg.view with
  | coherent => rw [syncEnabled_of_coherent pt hv, syncEnabled_of_coherent pt (h.cfg ▸ hv)]
  | lagged =>
    have hvt : t.cfg.view = .lagged := h.cfg ▸ hv
    rw [Bool.eq_iff_iff]
    cases pt with
    | p => rw [syncEnabled_p_iff_count hs hv, syncEnabled_p_iff_count ht hvt, h.producer, h.count]
    | q => rw [syncEnabled_q_iff_count hs hv, syncEnabled_q_iff_count ht hvt, h.consumer, h.count]

theorem history_syncView (pt : Port) (s : State) :
    (syncView pt s).history = (if syncEnabled pt s then [.synced pt] else []) ++ s.history := by
  cases he : syncEnabled pt s <;> cases pt <;> simp [syncView, he]

/-- Settles O41: the tests read the estimates, a POP's byte is the first stored one, and each outcome makes the same of
the stored bytes and estimates wherever they lie. -/
theorem freeSlotsAreUnobservable : Obligations.FreeSlotsAreUnobservable := by
  intro s t s' t' m hs ht hlike h h'
  cases m with
  | command pt w =>
    have hlike' := hlike.present pt w
    cases actsAlike_of_tests hs ht (hlike.seesFull hs ht) (hlike.seesEmpty hs ht) h h' with
    | fault k => exact ⟨⟨hlike.cfg, hlike.queue, hlike.producer, hlike.consumer⟩, [_], rfl, rfl⟩
    | answer st val => exact ⟨⟨hlike.cfg, hlike.queue, hlike.producer, hlike.consumer⟩, [_], rfl, rfl⟩
    | push b hf => exact ⟨hlike'.afterPush (inv_present pt w hs) (inv_present pt w ht) hf, [_], rfl, rfl⟩
    | pop he =>
      obtain ⟨hbyte, hpop⟩ := hlike'.afterPop (inv_present pt w hs) (inv_present pt w ht) he
      refine ⟨hpop, [.answered pt w (responseWord .ok (s.slot s.head))], rfl, ?_⟩
      rw [show s.slot s.head = t.slot t.head from hbyte]
      rfl
  | sync pt =>
    cases h
    cases h'
    refine ⟨hlike.syncView pt, _, history_syncView pt s, ?_⟩
    rw [history_syncView, hlike.syncEnabled pt hs ht]
  | reset =>
    cases h
    cases h'
    refine ⟨⟨hlike.cfg, ?_, ?_, ?_⟩, [.reset], rfl, rfl⟩
    · rw [resetEvent_queue, resetEvent_queue]
    · simp [State.producerCount, distC]
    · simp [State.consumerCount, distC]

/-! ### A lagged block beside the coherent build of the same state -/

theorem inv_asCoherent (hi : s.Inv) : s.asCoherent.Inv := ⟨hi.legal, hi.storage, hi.index, nofun, hi.fifo⟩

/-- In the coherent build each port's test is the true one. -/
theorem seesFull_asCoherent (hi : s.Inv) : s.asCoherent.seesFull = s.full := by
  rw [Bool.eq_iff_iff, full_iff hi]
  exact decide_eq_true_iff

theorem seesEmpty_asCoherent (hi : s.Inv) : s.asCoherent.seesEmpty = s.empty := by
  rw [Bool.eq_iff_iff, empty_iff hi]
  exact decide_eq_true_iff

theorem not_full_of_not_seesFull (hi : s.Inv) (hf : s.seesFull = false) : s.full = false := by
  have := count_le_producerCount hi
  rw [not_seesFull_iff hi] at hf
  simp only [State.full, decide_eq_false_iff_not]
  omega

theorem not_empty_of_not_seesEmpty (hi : s.Inv) (he : s.seesEmpty = false) : s.empty = false := by
  have := count_pos_of_not_seesEmpty hi he
  simp only [State.empty, decide_eq_false_iff_not]
  omega

/-- Settles O45: a test that a port's view makes true is true of the block too, or its answer is a conservative one. -/
theorem laggedAddsOnlyConservativeAnswers : Obligations.LaggedAddsOnlyConservativeAnswers := by
  intro s t pt w hi hl h
  have hc := inv_asCoherent hi
  obtain ⟨hr, rfl⟩ | ⟨i, hd, hp, rfl⟩ | ⟨b, hd, rfl, hf, rfl⟩ | ⟨b, hd, rfl, hf, rfl⟩ | ⟨hd, rfl, he, rfl⟩ |
    ⟨hd, rfl, he, rfl⟩ | ⟨hd, rfl, -⟩ := move_command_next h
  · obtain ⟨e, hd⟩ := exists_error_of_isReserved hr
    exact .inl (move_command_of_reserved hd)
  · exact .inl (move_of_wrong_port hc hd hp)
  · cases hfull : s.full with
    | true => exact .inl (move_push_of_full hc hd ((seesFull_asCoherent hi).trans hfull))
    | false => exact .inr ⟨sameBlock_respond_present _ _, rfl, .inl ⟨rfl, ⟨b, hd⟩, rfl, rfl⟩⟩
  · have hfull := not_full_of_not_seesFull hi (seesFull_eq_false_iff.mpr hf)
    exact .inl (move_push_of_room hc hd ((seesFull_asCoherent hi).trans hfull))
  · cases hempty : s.empty with
    | true => exact .inl (move_pop_of_empty hc hd ((seesEmpty_asCoherent hi).trans hempty))
    | false => exact .inr ⟨sameBlock_respond_present _ _, rfl, .inr (.inl ⟨rfl, hd, rfl, rfl⟩)⟩
  · have hempty := not_empty_of_not_seesEmpty hi (seesEmpty_eq_false_iff.mpr he)
    exact .inl (move_pop_of_byte hc hd ((seesEmpty_asCoherent hi).trans hempty))
  · rw [move_isempty hi hd] at h
    cases h
    by_cases hsame : s.empty = s.seesEmpty
    · left
      rw [move_isempty hc hd, seesEmpty_asCoherent hi, hsame]
      rfl
    · have hsees : s.seesEmpty = true := by
        by_contra hsees
        rw [Bool.not_eq_true] at hsees
        exact hsame ((not_empty_of_not_seesEmpty hi hsees).trans hsees.symm)
      rw [hsees] at hsame ⊢
      exact .inr ⟨sameBlock_respond_present _ _, rfl, .inr (.inr ⟨rfl, hd, rfl, by simpa using hsame⟩)⟩

/-- After both sync steps each port's test is the true one. -/
theorem seesFull_of_synced (s : State) : (syncView .q (syncView .p s)).seesFull = s.asCoherent.seesFull := by
  simp only [State.seesFull, syncView_cfg, syncView_tail, hv_syncView_q, hv_syncView_p]
  rfl

theorem seesEmpty_of_synced (s : State) : (syncView .q (syncView .p s)).seesEmpty = s.asCoherent.seesEmpty := by
  simp only [State.seesEmpty, syncView_head, tv_syncView_q, syncView_tail]
  rfl

theorem sameStorage_synced (s : State) : SameStorage (syncView .q (syncView .p s)) s.asCoherent :=
  ⟨by simp [State.asCoherent], by simp [State.asCoherent], by simp [State.asCoherent], by simp [State.asCoherent],
    by simp [State.asCoherent]⟩

/-- Settles O46: the sync steps write the views alone, and with them the tests are the coherent build's. -/
theorem syncedLaggedIsCoherent : Obligations.SyncedLaggedIsCoherent := by
  intro s t u pt w hi hl hrun hu
  have ht : move (.command pt w) (syncView .q (syncView .p s)) = .next t := by
    rw [moves_cons rfl, moves_cons rfl] at hrun
    obtain ⟨t', ht'⟩ := exists_move_eq_next (m := .command pt w) (inv_syncView .q (inv_syncView .p hi))
    rw [moves_cons ht'] at hrun
    cases hrun
    exact ht'
  have halike := actsAlike_of_tests (inv_syncView .q (inv_syncView .p hi)) (inv_asCoherent hi)
    (seesFull_of_synced s).symm (seesEmpty_of_synced s).symm ht hu
  obtain ⟨hsame, hresponse⟩ := halike.sameStorage (sameStorage_synced s)
  exact ⟨hsame.head, hsame.tail, hsame.mem, hsame.queue, hsame.faults, hresponse⟩

end Sys2Proof.Machine
end

section
/-! Endless executions under fair sync steps (20_memory.md R53). -/

namespace Sys2Proof.Machine

variable {s t : State} {m : Move} {run : Nat → State} {label : Nat → Move}

theorem Execution.inv (hexec : Execution run label) (hi : (run 0).Inv) (n : Nat) : (run n).Inv := by
  induction n with
  | zero => exact hi
  | succ n ih => exact move_keeps_inv ih (hexec n)

theorem Execution.cfg (hexec : Execution run label) (n : Nat) : (run n).cfg = (run 0).cfg := by
  induction n with
  | zero => rfl
  | succ n ih => exact (move_frame (hexec n)).1.trans ih

/-- While the consumer sees empty, only a reset takes stored bytes away. -/
theorem count_le_of_seesEmpty (hi : s.Inv) (he : s.seesEmpty = true) (hm : m ≠ .reset) (h : move m s = .next t) :
    s.count ≤ t.count := by
  cases m with
  | reset => exact absurd rfl hm
  | sync pt => cases h; simp
  | command pt w =>
    obtain ⟨-, rfl⟩ | ⟨_, -, -, rfl⟩ | ⟨_, -, -, -, rfl⟩ | ⟨b, -, -, hf, rfl⟩ | ⟨-, -, -, rfl⟩ | ⟨-, -, hne, -⟩ |
      ⟨-, -, rfl⟩ := move_command_next h
    -- the accepted PUSH, and the POP of a byte
    case inr.inr.inr.inl =>
      have hcount := count_afterPush (b := b) (inv_present pt w hi) (seesFull_eq_false_iff.mpr hf)
      rw [hcount, present_count]
      omega
    case inr.inr.inr.inr.inr.inl => exact absurd (seesEmpty_eq_true_iff.mp he) hne
    all_goals exact le_rfl

/-- While the producer sees full, no byte is added. -/
theorem count_le_of_seesFull (hi : s.Inv) (hf : s.seesFull = true) (hm : m ≠ .reset) (h : move m s = .next t) :
    t.count ≤ s.count := by
  cases m with
  | reset => exact absurd rfl hm
  | sync pt => cases h; simp
  | command pt w =>
    obtain ⟨-, rfl⟩ | ⟨_, -, -, rfl⟩ | ⟨_, -, -, -, rfl⟩ | ⟨b, -, -, hne, -⟩ | ⟨-, -, -, rfl⟩ | ⟨-, -, he, rfl⟩ |
      ⟨-, -, rfl⟩ := move_command_next h
    -- the accepted PUSH, and the POP of a byte
    case inr.inr.inr.inl => exact absurd (seesFull_eq_true_iff.mp hf) hne
    case inr.inr.inr.inr.inr.inl =>
      have hcount := count_afterPop (inv_present pt w hi) (seesEmpty_eq_false_iff.mpr he)
      rw [present_count] at hcount
      omega
    all_goals exact le_rfl

/-- A buffer seen empty for ever would keep its bytes, so SyncQ would stay enabled, and once taken it shows them. -/
theorem byte_seen_of_fair (hexec : Execution run label) (hi : (run 0).Inv) (hl : (run 0).cfg.view = .lagged)
    (hreset : ∀ n, label n ≠ .reset) (hfair : WeaklyFair .q run label) (hcount : 0 < (run 0).count) :
    ∃ n, (run n).seesEmpty = false := by
  by_contra hno
  have hempty : ∀ n, (run n).seesEmpty = true := fun n => by simpa using not_exists.mp hno n
  have hstored : ∀ n, 0 < (run n).count := fun n => by
    induction n with
    | zero => exact hcount
    | succ n ih => exact ih.trans_le (count_le_of_seesEmpty (hexec.inv hi n) (hempty n) (hreset n) (hexec n))
  have henabled : ∀ n, syncEnabled .q (run n) = true := fun n => by
    have hzero := (seesEmpty_of_inv (hexec.inv hi n)).mp (hempty n)
    have hpos := hstored n
    rw [syncEnabled_q_iff_count (hexec.inv hi n) (hexec.cfg n ▸ hl)]
    omega
  obtain ⟨n, -, hsync⟩ := hfair 0 fun n _ => henabled n
  have hnext : syncView .q (run n) = run (n + 1) := by simpa [hsync, move] using hexec n
  have hzero := (seesEmpty_of_inv (hexec.inv hi (n + 1))).mp (hempty (n + 1))
  rw [← hnext, consumerCount_syncView, if_pos rfl] at hzero
  exact absurd hzero (hstored n).ne'

/-- A buffer seen full for ever would keep its room, so SyncP would stay enabled, and once taken it shows it. -/
theorem room_seen_of_fair (hexec : Execution run label) (hi : (run 0).Inv) (hl : (run 0).cfg.view = .lagged)
    (hreset : ∀ n, label n ≠ .reset) (hfair : WeaklyFair .p run label)
    (hcount : (run 0).count < (run 0).cfg.slots - 1) : ∃ n, (run n).seesFull = false := by
  by_contra hno
  have hfull : ∀ n, (run n).seesFull = true := fun n => by simpa using not_exists.mp hno n
  have hroom : ∀ n, (run n).count < (run 0).cfg.slots - 1 := fun n => by
    induction n with
    | zero => exact hcount
    | succ n ih => exact (count_le_of_seesFull (hexec.inv hi n) (hfull n) (hreset n) (hexec n)).trans_lt ih
  have hmax : ∀ n, (run n).producerCount = (run 0).cfg.slots - 1 := fun n => by
    rw [← hexec.cfg n]
    exact (seesFull_of_inv (hexec.inv hi n)).mp (hfull n)
  have henabled : ∀ n, syncEnabled .p (run n) = true := fun n => by
    rw [syncEnabled_p_iff_count (hexec.inv hi n) (hexec.cfg n ▸ hl), hmax n]
    exact (hroom n).ne'
  obtain ⟨n, -, hsync⟩ := hfair 0 fun n _ => henabled n
  have hnext : syncView .p (run n) = run (n + 1) := by simpa [hsync, move] using hexec n
  have hlast := hmax (n + 1)
  rw [← hnext, producerCount_syncView, if_pos rfl] at hlast
  exact absurd hlast (hroom n).ne

/-- Settles O47: a stale answer that never ended would leave its sync step enabled for ever, against fairness. -/
theorem fairSyncEndsStaleAnswers : Obligations.FairSyncEndsStaleAnswers := fun _ _ hexec hi hl hreset =>
  ⟨byte_seen_of_fair hexec hi hl hreset, room_seen_of_fair hexec hi hl hreset⟩

end Sys2Proof.Machine
end

section
/-! The half-step machine beside the atomic one (20_memory.md R45, R49): each half-step is no step, or the atomic step
of the command it completes. -/

namespace Sys2Proof.Machine

variable {m m' : SplitState} {s : State} {b : Byte}

theorem StandsFor.hv (h : StandsFor m s) : s.hv = m.block.hv := by
  rw [State.hv, State.hv, h.cfg, h.head, h.hvLag]

theorem StandsFor.tv (h : StandsFor m s) : s.tv = m.block.tv := by
  rw [State.tv, State.tv, h.cfg, h.tail, h.tvLag]

theorem StandsFor.seesFull (h : StandsFor m s) : s.seesFull = m.block.seesFull := by
  rw [State.seesFull, State.seesFull, h.cfg, h.tail, h.hv]

theorem StandsFor.seesEmpty (h : StandsFor m s) : s.seesEmpty = m.block.seesEmpty := by
  rw [State.seesEmpty, State.seesEmpty, h.head, h.tv]

theorem head_ne_tail_of_byte (hi : s.Inv) (he : s.seesEmpty = false) : s.head ≠ s.tail := fun heq => by
  simpa [(empty_iff hi).mpr heq] using not_empty_of_not_seesEmpty hi he

/-- The slot that a POP reads is not the one whose byte is not yet published. -/
theorem StandsFor.slot_head (hi : s.Inv) (h : StandsFor m s) (he : s.seesEmpty = false) :
    s.slot s.head = m.block.slot m.block.head := by
  rw [h.slots s.head (.inr (h.tail ▸ head_ne_tail_of_byte hi he)), h.head]

theorem standsFor_self (hi : s.Inv) : StandsFor { block := s, producer := .idle, consumer := .idle } s :=
  ⟨rfl, rfl, rfl, rfl, rfl, rfl, rfl, hi.storage.1, fun _ _ => rfl, nofun, nofun⟩

/-- Both machines answer alike over the block as it was. -/
theorem StandsFor.respond (pt : Port) (w : Word) (st : Status) (val : Byte) (h : StandsFor m s) :
    StandsFor { m with block := respond st val (present pt w m.block) } (respond st val (present pt w s)) :=
  ⟨h.cfg, h.head, h.tail, h.hvLag, h.tvLag, h.faults, congrArg (List.cons _) h.history, h.storage, h.slots, h.stored, h.loaded⟩

/-- A byte stored and not yet published changes nothing of the atomic state. -/
theorem StandsFor.storeByte (h : StandsFor m s) (hidle : m.producer = .idle) (hf : s.seesFull = false) :
    StandsFor { m with block := { m.block with mem := Memory.write m.block.mem m.block.tail b }, producer := .stored b }
      s := by
  refine ⟨h.cfg, h.head, h.tail, h.hvLag, h.tvLag, h.faults, h.history, Memory.write_wf _ _ h.storage, ?_, ?_, h.loaded⟩
  · rintro i (hi | hi)
    · cases hi
    · exact (h.slots i (.inl hidle)).trans (Memory.read_write_other _ _ _ _ h.storage (Ne.symm hi)).symm
  · rintro c hc
    cases hc
    exact ⟨hf, Memory.read_write_same _ _ _ h.storage⟩

/-- A byte read and not yet consumed changes nothing of the atomic state. -/
theorem StandsFor.loadByte (hi : s.Inv) (h : StandsFor m s) (he : s.seesEmpty = false) :
    StandsFor { m with consumer := .loaded (m.block.slot m.block.head) } s := by
  refine ⟨h.cfg, h.head, h.tail, h.hvLag, h.tvLag, h.faults, h.history, h.storage, h.slots, h.stored, ?_⟩
  rintro c hc
  cases hc
  exact ⟨he, h.slot_head hi he⟩

/-- Publishing `tail` is the atomic PUSH of the byte stored. -/
theorem StandsFor.publishTail (hi : s.Inv) (h : StandsFor m s) (hb : m.producer = .stored b)
    (hm : halfStep .publishTail m = some m') :
    ∃ t, move (.command .p (encode (.push b))) s = .next t ∧ t.lastResponse = some 0x0000#16 ∧ StandsFor m' t := by
  obtain ⟨hf, hslot⟩ := h.stored b hb
  have hpush := move_push_of_room hi (decode_encode (.push b)) hf
  have hpi := inv_present .p (encode (.push b)) hi
  simp only [halfStep, hb] at hm
  cases hm
  refine ⟨_, hpush, rfl, h.cfg, h.head, ?_, h.hvLag, h.tvLag, h.faults, congrArg (List.cons _) h.history, h.storage, ?_, nofun, ?_⟩
  · simp [h.cfg, h.tail]
  · rintro i -
    by_cases heq : i = s.tail
    · rw [heq]
      refine (afterPush_slot_tail hpi.storage.1).trans ?_
      rw [← hslot, h.tail]
      rfl
    · exact (afterPush_slot_of_ne hpi.storage.1 heq).trans (h.slots i (.inr (h.tail ▸ heq)))
  · rintro c hc
    obtain ⟨he, hbyte⟩ := h.loaded c hc
    refine ⟨afterPush_keeps_byte_seen hpi (move_keeps_inv hi hpush) hf he, ?_⟩
    exact (afterPush_slot_of_ne hpi.storage.1 (head_ne_tail_of_byte hi he)).trans hbyte

/-- Publishing `head` is the atomic POP of the byte read. -/
theorem StandsFor.publishHead (hi : s.Inv) (h : StandsFor m s) (hb : m.consumer = .loaded b)
    (hm : halfStep .publishHead m = some m') :
    ∃ t, move (.command .q 0x0200#16) s = .next t ∧ t.lastResponse = some (wordOf 0x00#8 b) ∧ StandsFor m' t := by
  obtain ⟨he, rfl⟩ := h.loaded b hb
  have hpop := move_pop_of_byte hi decode_pop he
  have hpi := inv_present .q 0x0200#16 hi
  simp only [halfStep, hb] at hm
  cases hm
  refine ⟨_, hpop, rfl, h.cfg, ?_, h.tail, h.hvLag, h.tvLag, h.faults, congrArg (List.cons _) h.history, h.storage, h.slots, ?_, nofun⟩
  · simp [h.cfg, h.head]
  · rintro c hc
    obtain ⟨hf, hslot⟩ := h.stored c hc
    exact ⟨afterPop_keeps_room_seen hpi (move_keeps_inv hi hpop) hf he, hslot⟩

/-- A sync step is the same in both machines. -/
theorem StandsFor.sync (pt : Port) (hi : s.Inv) (h : StandsFor m s) :
    StandsFor { m with block := syncView pt m.block } (syncView pt s) := by
  have henabled : syncEnabled pt s = syncEnabled pt m.block := by
    simp only [syncEnabled, h.cfg, h.head, h.tail, h.hvLag, h.tvLag]
  have hviews : (syncView pt s).hvLag = (syncView pt m.block).hvLag ∧
      (syncView pt s).tvLag = (syncView pt m.block).tvLag := by
    simp only [syncView, henabled]
    cases syncEnabled pt m.block <;> cases pt <;> simp [h.head, h.tail, h.hvLag, h.tvLag]
  refine ⟨by simp [h.cfg], by simp [h.head], by simp [h.tail], hviews.1, hviews.2, by simp [h.faults], ?_,
    by simpa using h.storage, fun i hslot => ?_, fun b hb => ?_, fun b hb => ?_⟩
  · rw [history_syncView, history_syncView, henabled, h.history]
  · rw [syncView_slot, syncView_slot]
    exact h.slots i (by simpa using hslot)
  · obtain ⟨hf, hslot⟩ := h.stored b hb
    exact ⟨syncView_keeps_room_seen pt hi hf, by simpa using hslot⟩
  · obtain ⟨he, hslot⟩ := h.loaded b hb
    exact ⟨syncView_keeps_byte_seen pt hi he, by simpa using hslot⟩

/-- Settles O49: the index write of an accepted command is its atomic step. -/
theorem indexWriteIsTheLinearizationPoint : Obligations.IndexWriteIsTheLinearizationPoint := fun _ _ _ hi h =>
  ⟨fun _ hb hm => h.publishTail hi hb hm, fun _ hb hm => h.publishHead hi hb hm⟩

/-- Settles O48: a half-step that begins an accepted command is no step, and every other is the atomic step of its
command or its sync step. -/
theorem halfStepsRefineAtomicCommands : Obligations.HalfStepsRefineAtomicCommands := by
  refine ⟨fun s hi => standsFor_self hi, fun ⟨block, producer, consumer⟩ m' s x hi h hm => ?_⟩
  cases x with
  | storeByte b =>
    cases producer with
    | stored c => simp [halfStep] at hm
    | idle =>
      have hsees : s.seesFull = block.seesFull := h.seesFull
      simp only [halfStep, ← hsees] at hm
      cases hf : s.seesFull with
      | true =>
        rw [hf] at hm
        cases hm
        exact .inr ⟨_, _, move_push_of_full hi (decode_encode (.push b)) hf, h.respond _ _ _ _⟩
      | false =>
        rw [hf] at hm
        cases hm
        exact .inl (h.storeByte rfl hf)
  | publishTail =>
    cases producer with
    | idle => simp [halfStep] at hm
    | stored b =>
      obtain ⟨t, ht, -, hstands⟩ := h.publishTail hi rfl hm
      exact .inr ⟨_, t, ht, hstands⟩
  | loadByte =>
    cases consumer with
    | loaded c => simp [halfStep] at hm
    | idle =>
      have hsees : s.seesEmpty = block.seesEmpty := h.seesEmpty
      simp only [halfStep, ← hsees] at hm
      cases he : s.seesEmpty with
      | true =>
        rw [he] at hm
        cases hm
        exact .inr ⟨_, _, move_pop_of_empty hi (decode_encode .pop) he, h.respond _ _ _ _⟩
      | false =>
        rw [he] at hm
        cases hm
        exact .inl (h.loadByte hi he)
  | publishHead =>
    cases consumer with
    | idle => simp [halfStep] at hm
    | loaded b =>
      obtain ⟨t, ht, -, hstands⟩ := h.publishHead hi rfl hm
      exact .inr ⟨_, t, ht, hstands⟩
  | askEmpty =>
    cases consumer with
    | loaded c => simp [halfStep] at hm
    | idle =>
      have hsees : s.seesEmpty = block.seesEmpty := h.seesEmpty
      simp only [halfStep, present_seesEmpty, ← hsees] at hm
      cases hm
      exact .inr ⟨_, _, move_isempty hi (decode_encode .isempty), h.respond _ _ _ _⟩
  | sync pt =>
    cases hm
    exact .inr ⟨.sync pt, _, rfl, h.sync pt hi⟩

end Sys2Proof.Machine
end

section
/-! What a line assembles to (30_encoding.md R70, R71): one lemma for a line whose words all go to one port. -/

namespace Sys2Proof.Machine

variable {named : Option Port} {pt : Port} {w : Word} {i : Instr} {stmt : AsmStmt} {ws : List Word}

theorem asmPort_of_decode (hd : decode w = .ok i) : asmPort named w = .ok (named.getD i.port) := by
  cases named <;> simp [asmPort, hd]

theorem asmPort_encode (named : Option Port) (i : Instr) : asmPort named (encode i) = .ok (named.getD i.port) :=
  asmPort_of_decode (decode_encode i)

theorem mapM_asmPort (h : ∀ w ∈ ws, asmPort named w = .ok pt) :
    (ws.mapM fun w => (asmPort named w).map fun port => (port, w)) = .ok (ws.map fun w => (pt, w)) := by
  induction ws with
  | nil => rfl
  | cons w ws ih =>
    rw [List.mapM_cons, h w List.mem_cons_self, ih fun v hv => h v (List.mem_cons_of_mem w hv)]
    rfl

theorem assemble_of_port (hw : stmt.wellFormed = true) (h : ∀ w ∈ stmt.words, asmPort named w = .ok pt) :
    assemble { port := named, stmt := stmt } = .ok (stmt.words.map fun w => (pt, w)) := by
  rw [assemble, if_pos hw]
  exact mapM_asmPort h

theorem assemble_of_range (hw : stmt.wellFormed = false) :
    assemble { port := named, stmt := stmt } = .error .operandRange :=
  if_neg (by simp [hw])

/-- A statement of one word. -/
theorem assemble_of_word (hw : stmt.wellFormed = true) (hwords : stmt.words = [w]) (h : asmPort named w = .ok pt) :
    assemble { port := named, stmt := stmt } = .ok [(pt, w)] := by
  rw [assemble_of_port hw (pt := pt) (by simpa [hwords] using h), hwords]
  rfl

theorem assemble_of_no_port (hw : stmt.wellFormed = true) (hwords : stmt.words = [w]) (hr : isReserved w = true) :
    assemble { port := none, stmt := stmt } = .error .noPort := by
  obtain ⟨e, hd⟩ := exists_error_of_isReserved hr
  simp only [assemble, hw, if_true, hwords, List.mapM_cons, asmPort, hd]
  rfl

/-- Settles O50: each statement has one word, whose port is the named one, its command's own, or none. -/
theorem linesAssembleToTheirWords : Obligations.LinesAssembleToTheirWords := by
  intro named n
  refine ⟨fun hn => ?_, fun hn => ?_, ?_, ?_, fun hn pt => ?_, fun hn i hd => ?_, fun hn hr => ?_⟩
  · exact assemble_of_word (by simpa [AsmStmt.wellFormed] using hn) rfl (asmPort_encode named (.push _))
  · exact assemble_of_range (by simpa [AsmStmt.wellFormed] using hn)
  · exact assemble_of_word rfl rfl (asmPort_encode named .pop)
  · exact assemble_of_word rfl rfl (asmPort_encode named .isempty)
  · exact assemble_of_word (by simpa [AsmStmt.wellFormed] using hn) rfl rfl
  · exact assemble_of_word (by simpa [AsmStmt.wellFormed] using hn) rfl (asmPort_of_decode hd)
  · exact assemble_of_no_port (by simpa [AsmStmt.wellFormed] using hn) rfl hr

/-- Settles O52: every word of `push.s` is a PUSH, so all go to one port. -/
theorem textExpandsToOnePushEach : Obligations.TextExpandsToOnePushEach := by
  intro named codes hcodes
  have hport : ∀ w ∈ (AsmStmt.pushText codes).words, asmPort named w = .ok (named.getD .p) := fun w hw => by
    obtain ⟨c, -, rfl⟩ := List.mem_map.mp hw
    exact asmPort_encode named (.push _)
  rw [assemble_of_port (by simpa [AsmStmt.wellFormed] using hcodes) hport, AsmStmt.words, List.map_map]
  rfl

/-- Settles O51: the reader and the assembler evaluate on each written line. -/
theorem specLinesAssemble : Obligations.SpecLinesAssemble := by
  unfold Obligations.SpecLinesAssemble
  refine ⟨?_, ?_, ?_, ?_, ?_, ?_, ?_, ?_, ?_, ?_, ?_⟩
  all_goals decide

end Sys2Proof.Machine
end

section
/-! A command of a host script as one step of the block (30_encoding.md R72). -/

namespace Sys2Proof.Machine

variable {s t : State} {pt : Port} {w rsp : Word}

/-- With no turn scheduled, the script's command comes next. -/
theorem turnsBefore_of_no_schedule (hs : s.schedule = []) : turnsBefore pt s.schedule s = .next s := by
  rw [hs, turnsBefore, ← hs]

theorem scriptIssue_of_move (hl : s.cfg.wellFormed = true) (hs : s.schedule = [])
    (hm : move (.command pt w) s = .next t) (hr : t.lastResponse = some rsp) : scriptIssue pt w s = .ok (rsp, t) := by
  simp only [scriptIssue, guarded_of_legal hl, turnsBefore_of_no_schedule hs, hm, hr]

theorem lastResponse_of_move_command (hm : move (.command pt w) s = .next t) : ∃ rsp, t.lastResponse = some rsp := by
  obtain ⟨rsp, hh⟩ := history_of_move_command hm
  exact ⟨rsp, by rw [State.lastResponse, hh]⟩

/-- Settles O53: the command's step answers at once (O10), and the binding stands first in the environment. -/
theorem scriptCommandBindsItsResponse : Obligations.ScriptCommandBindsItsResponse := by
  intro s pt w x fuel env hi hs
  obtain ⟨t, hm⟩ := exists_move_eq_next (m := .command pt w) hi
  obtain ⟨rsp, hr⟩ := lastResponse_of_move_command hm
  refine ⟨t, rsp, hm, hr, ?_, ?_, ?_⟩
  · simp only [runScript, scriptWord, scriptIssue_of_move hi.legal hs hm hr]
  · simp [scriptEval, scriptLookup]
  · simp [scriptEval, scriptLookup]

end Sys2Proof.Machine
end
